-- ==== Sys2Proof/Word.lean ====
section
/-! DEFINITION. The widths of the block's values (`00_scope.md` R8, `30_encoding.md` R61). -/

namespace Sys2Proof

/-- A polynomial, a table entry, the accumulator, a seed, a checksum: width `W` = 32 (R8). -/
abbrev Word := BitVec 32

/-- The operand of `REV16` (R64). -/
abbrev Half := BitVec 16

/-- One input datum and one table index: width `BYTE` = 8 (R8). -/
abbrev Byte := BitVec 8

/-- A command word `CW` or a response word `RW`: widths `CWW` and `RWW`, 40 bits each (R8, R61, R63). -/
abbrev CmdWord := BitVec 40

end Sys2Proof
end

