-- ==== Sys2Proof/Config.lean ====
section
/-! DEFINITION. The constants wired into this block and its one open parameter (`00_scope.md` R8). -/

namespace Sys2Proof

/-- The implementation parameters the spec leaves OPEN: only `MAXLEN`, which "the model takes as an argument"
(R8, decision D6). A value of this type is fixed for a machine; no step changes it (log entry 5). -/
structure Config where
  /-- `MAXLEN`, the largest buffer length a command may carry; `none` is the spec's default, unbounded. -/
  maxLen : Option Nat
deriving DecidableEq, Repr

/-- The default the spec gives: no bound, `LEN` any natural number (R8, decision D6). -/
def Config.default : Config := { maxLen := none }

/-- Whether a binding of length `len` belongs to the type `0 <= LEN <= MAXLEN` (`30_encoding.md` R62). -/
def Config.allowsLen (c : Config) (len : Nat) : Bool :=
  match c.maxLen with
  | none => true
  | some m => decide (len ≤ m)

/-- `POLY`, the generator polynomial in normal form: wiring, not a register (`10_state.md` R21, log entry 9). -/
def POLY : Word := 0x04C11DB7#32

/-- `FMASK`, the pre- and post-complement mask (R8). -/
def FMASK : Word := 0xFFFFFFFF#32

/-- `VW`, the width of the Table Builder's working value `V` in this hardware (R8, decision D17). -/
def VW : Nat := 32

end Sys2Proof
end

