-- ==== Sys2Proof/Syntax.lean ====
section
/-! DEFINITION. The nine commands, one constructor per row of the opcode map (`30_encoding.md` R65), each with
the operands R66 takes from the command word. The data buffer of `CRC` is no field: it accompanies the command
and is not part of the command word (R62). -/

namespace Sys2Proof

/-- A command (R65). Operand widths are the spec's (R64), so every term is a legal command. -/
inductive Instr where
  /-- `REV8 x`, `x = ARG[7:0]`; `ARG[31:8]` is ignored (R84). -/
  | rev8 (x : Byte)
  /-- `REV16 x`, `x = ARG[15:0]`; `ARG[31:16]` is ignored (R85). -/
  | rev16 (x : Half)
  /-- `REV32 x`, `x = ARG` (R86). -/
  | rev32 (x : Word)
  /-- `BUILD`, no operand (R96). -/
  | build
  /-- `CRC buf, seed`, `seed = ARG` (R105). -/
  | crc (seed : Word)
  /-- `RDTAB i`, `i = ARG[7:0]` (R115). -/
  | rdtab (i : Byte)
  /-- `RDPOLY`, no operand (R116). -/
  | rdpoly
  /-- `RDRPOLY`, no operand (R117). -/
  | rdrpoly
  /-- `RDSTAT`, no operand (R118). -/
  | rdstat
deriving DecidableEq, Repr

end Sys2Proof
end

