-- ==== Sys2Proof/WellFormed.lean ====
section
/-! DEFINITION. The checks on what a host can write down.

An `Instr` needs none: each operand has exactly the spec's width (`30_encoding.md` R64), so a term that is no
legal command cannot be built. The checks that can fail are on the assembler's numbers (R69), which are not yet
bit vectors, and on the length of a buffer binding (R62). -/

namespace Sys2Proof

/-- Every term of `Instr` is a legal command; kept as a function over the constructors so that a command added
later must say what makes it legal. -/
def Instr.wellFormed : Instr → Bool
  | .rev8 _ | .rev16 _ | .rev32 _ | .build | .crc _ | .rdtab _ | .rdpoly | .rdrpoly | .rdstat => true

namespace WellFormed

/-- A number written as the operand `x` or `seed` fits the 32-bit field `ARG` (R61, R69). -/
def argument (n : Nat) : Bool := decide (n < 2 ^ 32)

/-- A number written as the operand of `RDTAB` satisfies `0 <= i <= 255` (R69). -/
def tableIndex (n : Nat) : Bool := decide (n ≤ 255)

/-- A number in a bracketed buffer is a byte value (R69). -/
def byteValue (n : Nat) : Bool := decide (n ≤ 255)

/-- A character of a quoted buffer is an ASCII character (R69). PRESUMED by the spec itself (its K2): the
character encoding is general knowledge (log entry 12). -/
def asciiChar (c : Char) : Bool := decide (c.toNat < 128)

/-- A buffer binding can be presented: `LEN <= MAXLEN` (R62). -/
def binding (c : Config) (bytes : List (Option Byte)) : Bool := c.allowsLen bytes.length

end WellFormed

end Sys2Proof
end

