-- ==== Sys2Proof/Decode.lean ====
section
/-! DEFINITION. Command words: their fields, the opcode map, the decoder, the encoder (`30_encoding.md` R61,
R65, R66, R67).

A command word is presented whole, as a number; there is no byte order (R60). -/

namespace Sys2Proof

/-- `OP = CW[39:32]` (R61). -/
def opField (cw : CmdWord) : Byte := cw.extractLsb' 32 8

/-- `ARG = CW[31:0]` (R61). -/
def argField (cw : CmdWord) : Word := cw.extractLsb' 0 32

/-- `ARG[7:0]` (R64). -/
def argByte (arg : Word) : Byte := arg.extractLsb' 0 8

/-- `ARG[15:0]` (R64). -/
def argHalf (arg : Word) : Half := arg.extractLsb' 0 16

/-- `ARG[31:8]`, the must-be-zero bits of `RDTAB` (R64). -/
def argAboveByte (arg : Word) : BitVec 24 := arg.extractLsb' 8 24

/-- The command word with the given fields: `CW = OP * 2^32 + ARG` (R61). -/
def commandWord (op : Byte) (arg : Word) : CmdWord := op ++ arg

/-- Why a command word is reserved: the four groups of R67. All raise `IllegalCommand` (R131). -/
inductive Reserved where
  /-- (a) `OP = 0x00`. -/
  | opcodeZero
  /-- (b) `OP` from 0x0A to 0xFF. -/
  | opcodeAboveMap (op : Byte)
  /-- (c) `OP` in {0x04, 0x07, 0x08, 0x09} with `ARG != 0`. -/
  | argumentNotZero (op : Byte) (arg : Word)
  /-- (d) `OP = 0x06` with `ARG[31:8] != 0`. -/
  | indexNotByte (arg : Word)
deriving DecidableEq, Repr

/-- A command without an operand is legal only when `ARG` is zero (R64, R67 (c)). -/
def decodeBare (op : Byte) (arg : Word) (i : Instr) : Except Reserved Instr :=
  if arg = 0#32 then .ok i else .error (.argumentNotZero op arg)

/-- The decoder of R66: total, it reads the command word and nothing else, and rejects by name. -/
def decode (cw : CmdWord) : Except Reserved Instr :=
  let op := opField cw
  let arg := argField cw
  if op = 0x01#8 then .ok (.rev8 (argByte arg))
  else if op = 0x02#8 then .ok (.rev16 (argHalf arg))
  else if op = 0x03#8 then .ok (.rev32 arg)
  else if op = 0x04#8 then decodeBare op arg .build
  else if op = 0x05#8 then .ok (.crc arg)
  else if op = 0x06#8 then
    if argAboveByte arg = 0#24 then .ok (.rdtab (argByte arg)) else .error (.indexNotByte arg)
  else if op = 0x07#8 then decodeBare op arg .rdpoly
  else if op = 0x08#8 then decodeBare op arg .rdrpoly
  else if op = 0x09#8 then decodeBare op arg .rdstat
  else if op = 0x00#8 then .error .opcodeZero
  else .error (.opcodeAboveMap op)

/-- The `OP` value that selects a command (R65). -/
def Instr.opcode : Instr → Byte
  | .rev8 _ => 0x01#8
  | .rev16 _ => 0x02#8
  | .rev32 _ => 0x03#8
  | .build => 0x04#8
  | .crc _ => 0x05#8
  | .rdtab _ => 0x06#8
  | .rdpoly => 0x07#8
  | .rdrpoly => 0x08#8
  | .rdstat => 0x09#8

/-- The `ARG` that carries a command's operand (R64, R69); ignored bits are written as zero. -/
def Instr.argument : Instr → Word
  | .rev8 x => x.setWidth 32
  | .rev16 x => x.setWidth 32
  | .rev32 x => x
  | .build => 0#32
  | .crc seed => seed
  | .rdtab i => i.setWidth 32
  | .rdpoly => 0#32
  | .rdrpoly => 0#32
  | .rdstat => 0#32

/-- The encoder: the command word of a command (R61, R65, R69). -/
def encode (i : Instr) : CmdWord := commandWord i.opcode i.argument

/-- A row of the opcode map: a word `CW` selects it when `CW & mask == match` (R65). -/
structure OpcodeRow where
  mnemonic : String
  mask : CmdWord
  bits : CmdWord
deriving DecidableEq, Repr

/-- `CW & mask == match` (R65). -/
def OpcodeRow.selects (r : OpcodeRow) (cw : CmdWord) : Bool := cw &&& r.mask == r.bits

/-- The opcode map of R65 as the spec prints it, `mask` and `match` columns. The decoder does not read it: it
is written from R66, and statements hold the two against each other. -/
def opcodeMap : List OpcodeRow :=
  [ ⟨"REV8", 0xFF00000000#40, 0x0100000000#40⟩,
    ⟨"REV16", 0xFF00000000#40, 0x0200000000#40⟩,
    ⟨"REV32", 0xFF00000000#40, 0x0300000000#40⟩,
    ⟨"BUILD", 0xFFFFFFFFFF#40, 0x0400000000#40⟩,
    ⟨"CRC", 0xFF00000000#40, 0x0500000000#40⟩,
    ⟨"RDTAB", 0xFFFFFFFF00#40, 0x0600000000#40⟩,
    ⟨"RDPOLY", 0xFFFFFFFFFF#40, 0x0700000000#40⟩,
    ⟨"RDRPOLY", 0xFFFFFFFFFF#40, 0x0800000000#40⟩,
    ⟨"RDSTAT", 0xFFFFFFFFFF#40, 0x0900000000#40⟩ ]

/-- The mnemonic of a command, as the opcode map spells it (R65). -/
def Instr.mnemonic : Instr → String
  | .rev8 _ => "REV8"
  | .rev16 _ => "REV16"
  | .rev32 _ => "REV32"
  | .build => "BUILD"
  | .crc _ => "CRC"
  | .rdtab _ => "RDTAB"
  | .rdpoly => "RDPOLY"
  | .rdrpoly => "RDRPOLY"
  | .rdstat => "RDSTAT"

/-- The bits of a command word that can affect anything: all but the ignored `ARG[31:8]` of `REV8` and
`ARG[31:16]` of `REV16` (R64, R67). -/
def Instr.significantBits : Instr → CmdWord
  | .rev8 _ => 0xFF000000FF#40
  | .rev16 _ => 0xFF0000FFFF#40
  | .rev32 _ | .build | .crc _ | .rdtab _ | .rdpoly | .rdrpoly | .rdstat => 0xFFFFFFFFFF#40

/-- The command word whose bits are the low `nbits` bits of `w`, the rest zero (log entry 6). The opcode table
numbers a command word's bits as R61 does: bit 0 is `CW[0]`. -/
def tableWord (nbits w : Nat) : CmdWord := BitVec.ofNat 40 (w % 2 ^ nbits)

/-- The command the decoder reads from the word whose bits are `w`; none where it refuses the word, and none
where the number does not fit the 40 bits of a command word. -/
def decodeTableWord (nbits w : Nat) : Option Instr :=
  if w % 2 ^ nbits < 2 ^ 40 then
    match decode (tableWord nbits w) with
    | .ok i => some i
    | .error _ => none
  else none

end Sys2Proof
end

