-- ==== Sys2Proof/Machine/State.lean ====
section
/-! DEFINITION. The state of the block, the host's moves it has yet to see, and why a step can stop
(`10_state.md`, `30_encoding.md` R60 to R63, `00_scope.md` R13, R14). -/

namespace Sys2Proof.Machine

/-- The spec's three faults (`60_exceptions.md` R131 to R133). A faulting command is ANSWERED: it ends with the
fault response of R134 and the block is ready for the next command, so a raise is a next state that carries the
fault in its response, and no step ends in `Host.Outcome.fault` (log entry 1). Safe: the fault stays visible in the
response, and the block's state is unchanged. -/
inductive Fault where
  /-- Raised by the decoder, for every reserved command word (R131). Safe. -/
  | illegalCommand
  /-- Raised by `CRC` and `RDTAB` while `TV = 0` (R132). Safe. -/
  | tableNotBuilt
  /-- Raised by `CRC` at the lowest unreadable buffer index (R133). Safe. -/
  | bufferFault
deriving DecidableEq, Repr

/-- Why the model gives no next state. -/
inductive Refusal where
  /-- A command without a meaning in this model. No command of this block has it. Safe. -/
  | notModelled (mnemonic : String)
  /-- The host presents a command while one is in progress. Raised by `step`, for no command: the spec's
  treatment of its U4 is `refuse`, "the host has no such move" (R71, R155; log entry 4). Safe. -/
  | commandInProgress
  /-- The host presents a buffer with `LEN > MAXLEN`. Raised by `step`, for no command: the spec's treatment of
  its U7 is `refuse` (R62; log entry 5). Safe. -/
  | bindingTooLong
deriving DecidableEq, Repr

/-- The status field `ST` of a response: exactly four values (R63, R135, U2). -/
inductive Status where
  | ok
  | faulted (f : Fault)
deriving DecidableEq, Repr

/-- A response: its two fields (R63). -/
structure Response where
  st : Status
  val : Word
deriving DecidableEq, Repr

/-- The `TABLE` space: 256 entries of 32 bits, indexed by a byte value (`10_state.md` R23, `20_memory.md` R40,
R41). -/
abbrev Table := Vector Word 256

/-- Byte-addressed memory: the readable bytes of the `DATA` space, keyed by buffer index, indices strictly
rising. An unlisted index is unreadable (R42). -/
abbrev Memory := List Host.Cell

/-- A buffer binding: a length, and for each index below it a byte or the fact that it is unreadable (R42,
R62). -/
structure Buffer where
  /-- `LEN`. -/
  len : Nat
  /-- The readable bytes. -/
  cells : Memory
deriving DecidableEq, Repr

/-- A move of the host, the block's only environment (R13). There is no move that changes a buffer while its
command is in progress (the spec's U5). -/
inductive HostMove where
  /-- Present a command: a command word and, index by index, the bytes of the buffer binding, `none` for an
  unreadable index; `LEN` is the list's length (R60, R62). -/
  | issue (cw : CmdWord) (bytes : List (Option Byte))
  /-- Make no move for one step: wait for the response of a command in progress (log entry 3). -/
  | await
  /-- Assert reset, which may come at any time (R150, R151). -/
  | reset
deriving DecidableEq, Repr

/-- The machine: what persists in the block (`table`, with `TV`), the command and the response on its
interface, the buffer the host has lent it, and the host's moves to come (R13, R14, R20).

`POLY` and `RPOLY` are wiring and stand in Config and in the Bit Reflector (log entry 9); `ACC`, `k`, `i`, `b`,
`V` and `A` live inside one command and no other command can observe them (R14, R26, R27; log entry 10). -/
structure State where
  /-- The CRC table `T[0..255]`, absent exactly when `TV = 0`: the representation R24 gives ("`TV` and 'all 256
  entries written' are the same fact"). The flag is read as `State.tv` (log entry 2). -/
  table : Option Table
  /-- The buffer bound by the host's last presented command (R42; log entry 7). -/
  buffer : Buffer
  /-- The command word presented and not yet answered: the command in progress (R34, R71). -/
  command : Option CmdWord
  /-- The response to the last command presented, once it is given (R63, R71; log entry 7). -/
  response : Option Response
  /-- The host's moves still to come, the next one first: the model's own field (log entry 3). -/
  hostMoves : List HostMove
  /-- The open parameter: the model's own field, constant (log entry 5). -/
  config : Config
deriving DecidableEq, Repr

/-- The binding of no bytes. -/
def Buffer.empty : Buffer := { len := 0, cells := [] }

/-- The machine right after reset (R34, R150): `TV = 0`, no table entry written, no command in progress. The
remaining fields are the interface's and the model's own; their values are DESIGN CHOICE (log entries 3, 5
and 7). -/
def State.reset : State :=
  { table := none
    buffer := Buffer.empty
    command := none
    response := none
    hostMoves := []
    config := Config.default }

end Sys2Proof.Machine
end

