-- ==== Sys2Proof/Machine/Ops.lean ====
section
/-! DEFINITION. The shared operations: reading the buffer and the table, answering a command, raising a fault,
reset, and presenting a command. -/

namespace Sys2Proof.Machine

/-- What every operation of this machine answers with. -/
abbrev Result := Host.Outcome State Fault Refusal

/-! ### The `DATA` space -/

/-- The byte listed at an index, if any. -/
def Memory.read : Memory → Nat → Option Byte
  | [], _ => none
  | (a, b) :: m, k => if a = k then some b else Memory.read m k

/-- Canonical form from a lower bound on: indices strictly rising and at least `low`. No entry can equal what an
unlisted index reads as, since that is "no byte". -/
def Memory.wfFrom (low : Nat) : Memory → Bool
  | [] => true
  | (a, _) :: m => decide (low ≤ a) && Memory.wfFrom (a + 1) m

/-- The one canonical form of a memory. -/
def Memory.wf (m : Memory) : Bool := Memory.wfFrom 0 m

/-- Every listed index lies below `len`: a buffer has no other index (R40, R42). -/
def Memory.below (len : Nat) : Memory → Bool
  | [] => true
  | (a, _) :: m => decide (a < len) && Memory.below len m

/-- A buffer in canonical form. -/
def Buffer.wf (b : Buffer) : Bool := Memory.wf b.cells && Memory.below b.len b.cells

/-- The readable bytes of a binding, from index `k` on. -/
def Memory.ofBytes : Nat → List (Option Byte) → Memory
  | _, [] => []
  | k, some v :: bs => (k, v) :: Memory.ofBytes (k + 1) bs
  | k, none :: bs => Memory.ofBytes (k + 1) bs

/-- The binding the host presents, index by index (R42, R62). -/
def Buffer.ofBytes (bytes : List (Option Byte)) : Buffer :=
  { len := bytes.length, cells := Memory.ofBytes 0 bytes }

/-- `MemRead(DATA, k, 1)`: the byte at index `k`, or none if the index is unreadable (R43). There is no byte at an
index of `LEN` or more. -/
def memRead (b : Buffer) (k : Nat) : Option Byte :=
  if k < b.len then Memory.read b.cells k else none

/-! ### The `TABLE` space -/

/-- `T[i]`: a whole entry; an 8-bit index is always in range (R41). -/
def Table.entry (t : Table) (i : Byte) : Word := t[i.toNat]'i.isLt

/-- The whole table written at once: `T[i] <- f i` for every `i`. No command runs between the writes, and their
order is unobservable (R47, R50, R96). -/
def Table.written (f : Byte → Word) : Table := Vector.ofFn fun i : Fin 256 => f (BitVec.ofFin i)

/-! ### Answering a command -/

/-- The command in progress ends with response `r`, exactly one per command (R71). -/
def answer (r : Response) (s : State) : State := { s with command := none, response := some r }

/-- `respond(v)`: status `OK` and value `v` (R11, R63). -/
def respond (v : Word) (s : State) : Result := .next (answer { st := .ok, val := v } s)

/-- `raise f`, this block's trap entry (R134): the command ends at once with the fault's status and `VAL = 0`,
nothing is saved, nothing else changes, and the block is ready for the next command. There is no return from it
(R138): the next command starts from the unchanged state. -/
def raise (f : Fault) (s : State) : Result := .next (answer { st := .faulted f, val := 0#32 } s)

/-! ### The host's moves -/

/-- Reset (R34, R150, R151): nothing of the block survives, a command in progress is abandoned without a
response. What is not the block's stays: the host's further moves and the parameter. -/
def assertReset (rest : List HostMove) (s : State) : State :=
  { State.reset with hostMoves := rest, config := s.config }

/-- The host presents a command with its buffer: it is in progress and has no response yet (R60, R71). -/
def present (cw : CmdWord) (bytes : List (Option Byte)) (rest : List HostMove) (s : State) : State :=
  { s with
    buffer := Buffer.ofBytes bytes
    command := some cw
    response := none
    hostMoves := rest }

/-- The host's next move is taken off its list and does nothing else. -/
def advanceHost (rest : List HostMove) (s : State) : State := { s with hostMoves := rest }

end Sys2Proof.Machine
end

