-- ==== Sys2Proof/Machine/Operands.lean ====
section
/-! DEFINITION. Operand assembly and response words: the zero extensions of results, the index of a table read,
the fields of a response word (`30_encoding.md` R63, R64, `20_memory.md` R56). -/

namespace Sys2Proof.Machine

/-- `zext_32` of a byte (R10, R64). -/
def zextByte (v : Byte) : Word := v.setWidth 32

/-- `zext_32` of a 16-bit value (R10, R64). -/
def zextHalf (v : Half) : Word := v.setWidth 32

/-- `ACC[7:0]` (R101). -/
def lowByte (acc : Word) : Byte := acc.extractLsb' 0 8

/-- `d ^ ACC[7:0]`, the one data-dependent index of the block (R56, R101). -/
def tableIndex (d : Byte) (acc : Word) : Byte := d ^^^ lowByte acc

/-- The status code of a fault (R131 to R133). -/
def Fault.code : Fault → Byte
  | .illegalCommand => 0x01#8
  | .tableNotBuilt => 0x02#8
  | .bufferFault => 0x03#8

/-- The status field `ST` (R63). -/
def Status.code : Status → Byte
  | .ok => 0x00#8
  | .faulted f => f.code

/-- The response word: `RW = ST * 2^32 + VAL` (R63). -/
def Response.word (r : Response) : CmdWord := r.st.code ++ r.val

end Sys2Proof.Machine
end

