-- ==== Sys2Proof/Machine/Flags.lean ====
section
/-! DEFINITION. The block's only flag, `TV`, and the status word that shows it (`10_state.md` R25, R30, R31). -/

namespace Sys2Proof.Machine

/-- `TV`, table valid: a `BUILD` has completed since reset (R25). It is the same fact as "all 256 entries are
written" (R24). -/
def State.tv (s : State) : Bool := s.table.isSome

/-- `T <- t` and `TV <- 1`, together: no command runs between the two (R96). -/
def State.setTable (t : Table) (s : State) : State := { s with table := some t }

/-- `STATUS`: bit 0 is `TV`, bits 31:1 are hardwired zero (R31, R118). -/
def State.statusWord (s : State) : Word := (BitVec.ofBool s.tv).setWidth 32

end Sys2Proof.Machine
end

