-- ==== Sys2Proof/Machine/BitReflector.lean ====
section
/-! DEFINITION. The Bit Reflector and its three commands (`40_bit_reflector.md`). -/

namespace Sys2Proof.Machine

/-- `reverseN(x, n)`: bit `k` of `x` goes to bit `n-1-k`, for `k < n`; bits of `x` from `n` up are ignored (R80). -/
def reverseN {w : Nat} : (n : Nat) → BitVec w → BitVec n
  | 0, _ => 0#0
  | n + 1, x => (reverseN n x).concat (x.getLsbD n)

/-- `reverse8`, by the contract itself (R81). -/
def reverse8 (x : Byte) : Byte := reverseN 8 x

/-- `reverse16`, by the cascade: the two halves swapped and each reversed (R81). -/
def reverse16 (x : Half) : Half := reverse8 (x.extractLsb' 0 8) ++ reverse8 (x.extractLsb' 8 8)

/-- `reverse32`, by the cascade (R81); the source's `reflect`. -/
def reverse32 (x : Word) : Word := reverse16 (x.extractLsb' 0 16) ++ reverse16 (x.extractLsb' 16 16)

/-- `RPOLY`, the reflected polynomial: a derived constant, valid from reset onward (`10_state.md` R22). -/
def RPOLY : Word := reverse32 POLY

/-- `REV8 x` (R84). -/
def execRev8 (x : Byte) (s : State) : Result := respond (zextByte (reverse8 x)) s

/-- `REV16 x` (R85). -/
def execRev16 (x : Half) (s : State) : Result := respond (zextHalf (reverse16 x)) s

/-- `REV32 x` (R86). -/
def execRev32 (x : Word) (s : State) : Result := respond (reverse32 x) s

end Sys2Proof.Machine
end

