-- ==== Sys2Proof/Machine/TableBuilder.lean ====
section
/-! DEFINITION. The Table Builder and its command (`41_table_builder.md`). -/

namespace Sys2Proof.Machine

/-- One bit position `b` of `build_entry`, on the working value `V` (here of any width) and the accumulator `A`:
the test is on the CURRENT `V`; the left shift is truncated to the width of `V` (R91). -/
def builderStep {vw : Nat} (rp : Word) (va : BitVec vw × Word) (b : Nat) : BitVec vw × Word :=
  if va.1.getLsbD b then (va.1 ^^^ (rp.setWidth vw <<< (b + 1)), va.2 ^^^ (rp >>> (7 - b))) else va

/-- `V` and `A` after the bit positions 0 to 7, ascending, from `V = i` and `A = 0` (R91), with a `V` of width
`vw`. -/
def builderFinal (vw : Nat) (rp : Word) (i : Byte) : BitVec vw × Word :=
  (List.range 8).foldl (builderStep rp) (i.setWidth vw, 0#32)

/-- `build_entry(rp, i)`: the accumulator at the end, `V` being `VW` = 32 bits wide (R91, decision D17). -/
def buildEntry (rp : Word) (i : Byte) : Word := (builderFinal VW rp i).2

/-- `build_table(rp)` (R90). -/
def buildTable (rp : Word) : Table := Table.written (buildEntry rp)

/-- `BUILD` (R96): every entry written from `RPOLY`, `TV` set, response value 0. -/
def execBuild (s : State) : Result := respond 0#32 (s.setTable (buildTable RPOLY))

end Sys2Proof.Machine
end

