-- ==== Sys2Proof/Machine/ChecksumEngine.lean ====
section
/-! DEFINITION. The Checksum Engine and its command (`42_checksum_engine.md`). -/

namespace Sys2Proof.Machine

/-- `crc_step(T, acc, d)`: one table read and one logical shift per byte (R101). -/
def crcStep (t : Table) (acc : Word) (d : Byte) : Word := t.entry (tableIndex d acc) ^^^ (acc >>> 8)

/-- `crc32(T, data, seed)`, the pure function: pre-complement, one step per byte in order, post-complement
(R102). -/
def crc32 (t : Table) (data : List Byte) (seed : Word) : Word :=
  data.foldl (crcStep t) (seed ^^^ FMASK) ^^^ FMASK

/-- The loop of `CRC` (R105): `n` more bytes, from index `k` on, each read from the bound buffer and absorbed in
ascending order; none as soon as an index is unreadable. -/
def absorb (t : Table) (buf : Buffer) : (n k : Nat) → (acc : Word) → Option Word
  | 0, _, acc => some acc
  | n + 1, k, acc =>
    match memRead buf k with
    | none => none
    | some d => absorb t buf n (k + 1) (crcStep t acc d)

/-- `CRC buf, seed` (R105): the table-valid check before any buffer read, then the bytes `0 .. LEN-1`. On a
fault the local accumulator is discarded (R133). -/
def execCrc (seed : Word) (s : State) : Result :=
  match s.table with
  | none => raise .tableNotBuilt s
  | some t =>
    match absorb t s.buffer s.buffer.len 0 (seed ^^^ FMASK) with
    | none => raise .bufferFault s
    | some acc => respond (acc ^^^ FMASK) s

end Sys2Proof.Machine
end

