-- ==== Sys2Proof/Machine/Inspection.lean ====
section
/-! DEFINITION. The inspection commands (`43_inspection.md`). -/

namespace Sys2Proof.Machine

/-- `RDTAB i` (R115): entry `i`, or `TableNotBuilt` while `TV = 0`. -/
def execRdtab (i : Byte) (s : State) : Result :=
  match s.table with
  | none => raise .tableNotBuilt s
  | some t => respond (t.entry i) s

/-- `RDPOLY` (R116). -/
def execRdpoly (s : State) : Result := respond POLY s

/-- `RDRPOLY` (R117). -/
def execRdrpoly (s : State) : Result := respond RPOLY s

/-- `RDSTAT` (R118). -/
def execRdstat (s : State) : Result := respond s.statusWord s

end Sys2Proof.Machine
end

