-- ==== Sys2Proof/Machine/Dispatch.lean ====
section
/-! DEFINITION. The one place that turns a command into its meaning. -/

namespace Sys2Proof.Machine

def exec (i : Instr) (s : State) : Host.Outcome State Fault Refusal :=
  match i with
  | .rev8 x => Sys2Proof.Machine.execRev8 x s
  | .rev16 x => Sys2Proof.Machine.execRev16 x s
  | .rev32 x => Sys2Proof.Machine.execRev32 x s
  | .build => Sys2Proof.Machine.execBuild s
  | .crc seed => Sys2Proof.Machine.execCrc seed s
  | .rdtab n => Sys2Proof.Machine.execRdtab n s
  | .rdpoly => Sys2Proof.Machine.execRdpoly s
  | .rdrpoly => Sys2Proof.Machine.execRdrpoly s
  | .rdstat => Sys2Proof.Machine.execRdstat s

end Sys2Proof.Machine
end

