-- ==== Sys2Proof/Machine/Command.lean ====
section
/-! DEFINITION. One move of the core and one move of the host (`00_scope.md` R13, `30_encoding.md` R71). -/

namespace Sys2Proof.Machine

/-- The core executes the whole command in progress: decode, then its meaning; a reserved word raises
`IllegalCommand` before anything else is examined (R66, R131, R136). -/
def runCommand (cw : CmdWord) (s : State) : Result :=
  match decode cw with
  | .ok i => exec i s
  | .error _ => raise .illegalCommand s

/-- A step with no command in progress: the host makes its next move, or the block stays idle (R13, R146). A
buffer longer than `MAXLEN` cannot be presented (R62). -/
def idleStep (s : State) : Result :=
  match s.hostMoves with
  | [] => .next s
  | .await :: rest => .next (advanceHost rest s)
  | .reset :: rest => .next (assertReset rest s)
  | .issue cw bytes :: rest =>
    if WellFormed.binding s.config bytes then .next (present cw bytes rest s) else .refused .bindingTooLong

/-- A step with the command `cw` in progress: it is carried out to its response, unless reset is asserted, which
abandons it (R151). The host cannot present a second command (R71, R155). -/
def busyStep (cw : CmdWord) (s : State) : Result :=
  match s.hostMoves with
  | [] => runCommand cw s
  | .await :: rest => runCommand cw (advanceHost rest s)
  | .reset :: rest => .next (assertReset rest s)
  | .issue _ _ :: _ => .refused .commandInProgress

/-- The command word is put in progress, and the host waits for its response: the next step runs it. -/
def stageWord (cw : CmdWord) (s : State) : State :=
  { s with command := some cw, hostMoves := .await :: s.hostMoves }

end Sys2Proof.Machine
end

