-- ==== Sys2Proof/Machine/Step.lean ====
section
/-! DEFINITION. The step: the core's move when a command is in progress, the host's otherwise (R13). -/

namespace Sys2Proof.Machine

/-- One step of the machine: "execute one whole command", or a move of the host (R13). -/
def step (s : State) : Host.Outcome State Fault Refusal :=
  match s.command with
  | some cw => busyStep cw s
  | none => idleStep s

/-- `s` with the command word given by `nbits` and `w` in progress, so that the next step runs it. The block
fetches nothing (R29): a command comes from the host, and this stands for the host presenting it with the buffer
that is bound in `s` (log entry 6). -/
def State.withFetchWord (s : State) (nbits w : Nat) : State := stageWord (tableWord nbits w) s

end Sys2Proof.Machine
end

