-- ==== Sys2Proof/Machine/Assembler.lean ====
section
/-! DEFINITION. The notation commands are written in, and what it stands for (`30_encoding.md` R69, R70). -/

namespace Sys2Proof.Machine

/-- A buffer operand as it is written (R69). -/
inductive BufferText where
  /-- A quoted string. -/
  | quoted (chars : List Char)
  /-- A bracketed list of byte values. -/
  | listed (values : List Nat)
deriving DecidableEq, Repr

/-- A command as it is written: the nine commands of R69 and the two pseudo-instructions of R70. Operands are
the numbers as written, not yet checked. -/
inductive AsmLine where
  | rev8 (x : Nat)
  | rev16 (x : Nat)
  | rev32 (x : Nat)
  | build
  | crc (buf : BufferText) (seed : Nat)
  | rdtab (i : Nat)
  | rdpoly
  | rdrpoly
  | rdstat
  /-- `CRC buf` with the seed omitted: it expands to `CRC buf, 0` (R70). -/
  | crcUnseeded (buf : BufferText)
  /-- `REFLECT x`: it expands to `REV32 x` (R70). -/
  | reflect (x : Nat)
deriving DecidableEq, Repr

/-- Every character is ASCII, or every listed value a byte value. -/
def BufferText.wellFormed : BufferText → Bool
  | .quoted cs => cs.all WellFormed.asciiChar
  | .listed ns => ns.all WellFormed.byteValue

/-- The bytes a buffer operand stands for, in order, with no terminator (R69; log entry 12). -/
def BufferText.bytes : BufferText → List Byte
  | .quoted cs => cs.map fun c => BitVec.ofNat 8 c.toNat
  | .listed ns => ns.map (BitVec.ofNat 8)

/-- Every operand is one the notation allows (R69). An `x` wider than the operand of `REV8` or `REV16` is legal: the
assembler places it in `ARG` unchanged. -/
def AsmLine.wellFormed : AsmLine → Bool
  | .rev8 x | .rev16 x | .rev32 x | .reflect x => WellFormed.argument x
  | .crc buf seed => buf.wellFormed && WellFormed.argument seed
  | .crcUnseeded buf => buf.wellFormed
  | .rdtab i => WellFormed.tableIndex i
  | .build | .rdpoly | .rdrpoly | .rdstat => true

/-- The command word of a line (R69, R70). -/
def AsmLine.word : AsmLine → CmdWord
  | .rev8 x => commandWord 0x01#8 (BitVec.ofNat 32 x)
  | .rev16 x => commandWord 0x02#8 (BitVec.ofNat 32 x)
  | .rev32 x | .reflect x => commandWord 0x03#8 (BitVec.ofNat 32 x)
  | .build => commandWord 0x04#8 0#32
  | .crc _ seed => commandWord 0x05#8 (BitVec.ofNat 32 seed)
  | .crcUnseeded _ => commandWord 0x05#8 0#32
  | .rdtab i => commandWord 0x06#8 (BitVec.ofNat 32 i)
  | .rdpoly => commandWord 0x07#8 0#32
  | .rdrpoly => commandWord 0x08#8 0#32
  | .rdstat => commandWord 0x09#8 0#32

/-- The buffer a line binds: that of `CRC`, the empty one for every other command, which ignores it (R62). -/
def AsmLine.bytes : AsmLine → List Byte
  | .crc buf _ | .crcUnseeded buf => buf.bytes
  | .rev8 _ | .rev16 _ | .rev32 _ | .reflect _ | .build | .rdtab _ | .rdpoly | .rdrpoly | .rdstat => []

/-- The host's move that a line stands for; none for a line the notation does not allow. -/
def AsmLine.assemble (l : AsmLine) : Option HostMove :=
  if l.wellFormed then some (.issue l.word (l.bytes.map some)) else none

end Sys2Proof.Machine
end

