-- ==== Sys2Proof/Safety.lean ====
section
/-! DEFINITION. The terms claims are stated in: what must hold of every state, what a run without faults is, and
the bit-at-a-time checksum that the table-driven one is held against. -/

namespace Sys2Proof.Machine

/-- "Whenever `TV = 1`, every entry holds `T[i] = build_entry(RPOLY, i)`" (`10_state.md` R23). -/
def State.TableSound (s : State) : Prop :=
  ∀ t, s.table = some t → ∀ i : Byte, t.entry i = buildEntry RPOLY i

/-- The invariant of the machine: the table holds what `BUILD` writes or nothing (R23, R24), the buffer is in
canonical form and of a length that can be presented (R42, R62), and a command in progress has no response yet
(R71). -/
structure State.Inv (s : State) : Prop where
  tableSound : s.TableSound
  bufferWf : s.buffer.wf = true
  lenAllowed : s.config.allowsLen s.buffer.len = true
  unanswered : s.command.isSome = true → s.response = none

/-- The host makes no move that bears on a command in progress: it waits, or has nothing more to do. -/
def State.waits (s : State) : Bool :=
  match s.hostMoves with
  | [] | .await :: _ => true
  | .reset :: _ | .issue _ _ :: _ => false

/-- The state with the host's waiting move, if there is one, taken off its list. -/
def State.afterWait (s : State) : State := advanceHost s.hostMoves.tail s

/-- The response reports a fault (`60_exceptions.md` R134). -/
def Response.isFault (r : Response) : Bool :=
  match r.st with
  | .ok => false
  | .faulted _ => true

/-- No fault is reported: the premise R140 asks of a claim about a result. -/
def State.noFault (s : State) : Prop := ∀ r, s.response = some r → r.isFault = false

/-- A buffer whose every byte is readable (`20_memory.md` R43, the source's precondition). -/
def readableBuffer (data : List Byte) : Buffer := Buffer.ofBytes (data.map some)

/-- Every index below `LEN` is readable. -/
def Buffer.readable (b : Buffer) : Prop := ∀ k < b.len, ∃ v, memRead b k = some v

/-- A state with another buffer bound. -/
def State.bind (b : Buffer) (s : State) : State := { s with buffer := b }

/-- One shift of the bit-at-a-time form (`41_table_builder.md` R92). -/
def shiftStep (rp c : Word) : Word := if c.getLsbD 0 then (c >>> 1) ^^^ rp else c >>> 1

/-- `n` shifts. -/
def shiftSteps (rp : Word) : Nat → Word → Word
  | 0, c => c
  | n + 1, c => shiftSteps rp n (shiftStep rp c)

/-- The shift-and-XOR form of a table entry (R92; general knowledge by the spec's own mark, its K1). -/
def shiftXorEntry (rp : Word) (i : Byte) : Word := shiftSteps rp 8 (i.setWidth 32)

/-- The checksum with no table: each byte XORed into the accumulator, then eight conditional shifts (R92). -/
def bitSerialCrc (rp : Word) (data : List Byte) (seed : Word) : Word :=
  data.foldl (fun acc d => shiftSteps rp 8 (acc ^^^ d.setWidth 32)) (seed ^^^ FMASK) ^^^ FMASK

end Sys2Proof.Machine
end

