-- ==== Sys2Proof/Certificates/Slice0/Obligations.lean ====
section
/-! DEFINITION. The statements for the provers. Rules R<n> are those of spec/; "log <n>" is notes/assumptions/<n>.md. -/

open Sys2Proof Sys2Proof.Machine

/-! ### Reset, the interface, the step -/

/-- R150: reset may be asserted at any time, and after it `TV = 0`, no entry is written (a table read faults), the
constants are at their values, no command is in progress; nothing of the block survives. -/
def Obligations.ResetReturnsTheInitialState : Prop :=
  ∀ (s : State) (rest : List HostMove), s.hostMoves = .reset :: rest →
    ∃ t, step s = .next t ∧ t.tv = false ∧ t.table = none ∧ t.command = none ∧ t.response = none ∧
      exec .rdstat t = .next { t with command := none, response := some ⟨.ok, 0x00000000#32⟩ } ∧
      exec .rdpoly t = .next { t with command := none, response := some ⟨.ok, 0x04C11DB7#32⟩ } ∧
      exec .rdrpoly t = .next { t with command := none, response := some ⟨.ok, 0xEDB88320#32⟩ } ∧
      ∀ i, exec (.rdtab i) t =
        .next { t with command := none, response := some ⟨.faulted .tableNotBuilt, 0#32⟩ }

/-- `10_state.md` section 8, on the state the machine starts in. -/
def Obligations.StartStateIsTheResetState : Prop :=
  State.reset.tv = false ∧ State.reset.table = none ∧ State.reset.command = none ∧
    State.reset.statusWord = 0x00000000#32 ∧ POLY = 0x04C11DB7#32 ∧ RPOLY = 0xEDB88320#32

/-- R71: a command in progress ends with exactly one response, or with reset and no response; a step without a
command in progress produces none; a second command cannot be presented meanwhile. -/
def Obligations.CommandEndsByResponseOrReset : Prop :=
  (∀ (s t : State) (cw : CmdWord), s.command = some cw → step s = .next t →
    t.command = none ∧ ((∃ r, t.response = some r) ∨
      (t.response = none ∧ ∃ rest, s.hostMoves = .reset :: rest))) ∧
  (∀ s t : State, s.command = none → step s = .next t → t.response = none ∨ t.response = s.response) ∧
  (∀ (s : State) (cw cw' : CmdWord) (bytes : List (Option Byte)) (rest : List HostMove),
    s.command = some cw → s.hostMoves = .issue cw' bytes :: rest → step s = .refused .commandInProgress)

/-- R60, R62, R42: a presented command is in progress, with the bytes the host listed, index by index. -/
def Obligations.PresentedCommandBindsItsBuffer : Prop :=
  ∀ (s : State) (cw : CmdWord) (bytes : List (Option Byte)) (rest : List HostMove),
    s.command = none → s.hostMoves = .issue cw bytes :: rest → s.config.allowsLen bytes.length = true →
    ∃ t, step s = .next t ∧ t.command = some cw ∧ t.response = none ∧ t.table = s.table ∧ t.hostMoves = rest ∧
      t.config = s.config ∧ t.buffer.len = bytes.length ∧
      (∀ k, k < bytes.length → bytes[k]? = some (memRead t.buffer k)) ∧
      (∀ k, bytes.length ≤ k → memRead t.buffer k = none)

/-- `93_implementation_defined.md` U7: a buffer longer than `MAXLEN` cannot be presented. -/
def Obligations.TooLongBufferIsNotPresented : Prop :=
  ∀ (s : State) (cw : CmdWord) (bytes : List (Option Byte)) (rest : List HostMove) (m : Nat),
    s.command = none → s.hostMoves = .issue cw bytes :: rest → s.config.maxLen = some m → m < bytes.length →
    step s = .refused .bindingTooLong

/-- The step runs the decoded command: with a command in progress and a host that waits, the step is the
command's meaning on the state with the host's wait taken off its list. -/
def Obligations.StepRunsTheDecodedCommand : Prop :=
  ∀ (s : State) (cw : CmdWord) (i : Instr), s.command = some cw → s.waits = true → decode cw = .ok i →
    step s = exec i s.afterWait

/-- The same for a word placed by `withFetchWord` (log 6): whatever the host's moves are, the next step is the
meaning of the decoded command, with the word in progress. -/
def Obligations.PlacedWordRunsNext : Prop :=
  ∀ (s : State) (nbits w : Nat) (i : Instr), decodeTableWord nbits w = some i →
    step (s.withFetchWord nbits w) = exec i { s with command := some (tableWord nbits w) }

/-- R161: every command terminates; here it is answered in one step (log 10). That no step ends in
`Host.Outcome.fault` is the model's reading (log 1, DEDUCED): a fault of the spec (`60_exceptions.md` section 2) is a
next state with the fault response. The step is refused only for the two moves the host does not have (U4, log 4; U7,
log 5). -/
def Obligations.EveryCommandTerminates : Prop :=
  (∀ (i : Instr) (s : State), ∃ t r, exec i s = .next t ∧ t.command = none ∧ t.response = some r) ∧
  (∀ (s : State) (f : Fault), step s ≠ .fault f) ∧
  (∀ (s : State) (e : Refusal), step s = .refused e → ∃ cw bytes rest, s.hostMoves = .issue cw bytes :: rest ∧
    (s.command.isSome = true ∨ s.config.allowsLen bytes.length = false))

/-- R146: `T` and `TV` survive idling until reset. That the response and the buffer stay as well while no command is
in progress is the model's choice (log 7, DESIGN CHOICE); the spec says nothing of them then. -/
def Obligations.IdleBlockKeepsItsState : Prop :=
  ∀ s : State, s.command = none → s.waits = true →
    ∃ t, step s = .next t ∧ t.table = s.table ∧ t.tv = s.tv ∧ t.command = none ∧ t.response = s.response ∧
      t.buffer = s.buffer

/-! ### Encoding -/

/-- Words written out from the patterns of R65 and from `95_test_vectors.md` section 2.7. -/
def Obligations.SampleWordsDecode : Prop :=
  decode 0x0112345678#40 = .ok (.rev8 0x78#8) ∧ decode 0x0212345678#40 = .ok (.rev16 0x5678#16) ∧
  decode 0x0304C11DB7#40 = .ok (.rev32 0x04C11DB7#32) ∧ decode 0x0400000000#40 = .ok .build ∧
  decode 0x05CBF53A1C#40 = .ok (.crc 0xCBF53A1C#32) ∧ decode 0x06000000FF#40 = .ok (.rdtab 0xFF#8) ∧
  decode 0x0700000000#40 = .ok .rdpoly ∧ decode 0x0800000000#40 = .ok .rdrpoly ∧
  decode 0x0900000000#40 = .ok .rdstat ∧
  decode 0x0000000000#40 = .error .opcodeZero ∧ decode 0xFFFFFFFFFF#40 = .error (.opcodeAboveMap 0xFF#8) ∧
  decode 0x0480000000#40 = .error (.argumentNotZero 0x04#8 0x80000000#32) ∧
  decode 0x0600000100#40 = .error (.indexNotByte 0x00000100#32)

/-- Decode and encode agree, for every command and every operand. -/
def Obligations.DecodingAnEncodedCommandGivesItBack : Prop :=
  ∀ i : Instr, decode (encode i) = .ok i

/-- The other direction: encoding a decoded word gives the word back, but for the bits the spec ignores. -/
def Obligations.EncodingADecodedWordKeepsItsBits : Prop :=
  ∀ (cw : CmdWord) (i : Instr), decode cw = .ok i → encode i = cw &&& i.significantBits

/-- R65: a word is legal exactly when a row of the opcode map selects it, the row is its command's, and no word
matches two rows. -/
def Obligations.DecoderAgreesWithTheOpcodeMap : Prop :=
  (∀ (cw : CmdWord) (i : Instr), decode cw = .ok i →
    (opcodeMap.filter fun r => cw &&& r.mask == r.bits).map (·.mnemonic) = [i.mnemonic]) ∧
  (∀ (cw : CmdWord) (e : Reserved), decode cw = .error e →
    opcodeMap.filter (fun r => cw &&& r.mask == r.bits) = [])

/-- R67 (a) to (d), with R131: the reserved words, and what each does. -/
def Obligations.ReservedWordsRaiseIllegalCommand : Prop :=
  ∀ (s : State) (cw : CmdWord), s.command = some cw → s.waits = true →
    (cw.extractLsb' 32 8 = 0x00#8 ∨ 0x0A#8 ≤ cw.extractLsb' 32 8 ∨
      ((cw.extractLsb' 32 8 = 0x04#8 ∨ cw.extractLsb' 32 8 = 0x07#8 ∨ cw.extractLsb' 32 8 = 0x08#8 ∨
        cw.extractLsb' 32 8 = 0x09#8) ∧ cw.extractLsb' 0 32 ≠ 0#32) ∨
      (cw.extractLsb' 32 8 = 0x06#8 ∧ cw.extractLsb' 8 24 ≠ 0#24) ↔ ∃ e, decode cw = .error e) ∧
    ((∃ e, decode cw = .error e) → step s =
      .next { s.afterWait with command := none, response := some ⟨.faulted .illegalCommand, 0#32⟩ }) ∧
    (Status.faulted .illegalCommand).code = 0x01#8

/-- R63: the response word, `RW = ST * 2^32 + VAL`, with the four status codes; what `respond` and `raise`
produce. -/
def Obligations.ResponseWordHasStatusAndValue : Prop :=
  (∀ r : Response, r.word.toNat = r.st.code.toNat * 2 ^ 32 + r.val.toNat ∧
    r.word.extractLsb' 32 8 = r.st.code ∧ r.word.extractLsb' 0 32 = r.val) ∧
  Status.ok.code = 0x00#8 ∧ (Status.faulted .illegalCommand).code = 0x01#8 ∧
  (Status.faulted .tableNotBuilt).code = 0x02#8 ∧ (Status.faulted .bufferFault).code = 0x03#8 ∧
  (∀ st : Status, st.code < 0x04#8) ∧
  (∀ (v : Word) (s : State), ∃ t r, respond v s = .next t ∧ t.response = some r ∧ r.word = 0x00#8 ++ v) ∧
  (∀ (f : Fault) (s : State), ∃ t r, raise f s = .next t ∧ t.response = some r ∧
    r.word = (Status.faulted f).code ++ 0x00000000#32)

/-- R70: the two pseudo-instructions stand for the words, and the buffers, of their expansions. -/
def Obligations.PseudoInstructionsExpand : Prop :=
  (∀ buf : BufferText, (AsmLine.crcUnseeded buf).assemble = (AsmLine.crc buf 0).assemble) ∧
  (∀ x : Nat, (AsmLine.reflect x).assemble = (AsmLine.rev32 x).assemble)

/-- R69: every allowed line assembles to a legal command word with the operand as written; `REV8` and `REV16`
take the low bits of a wider number. -/
def Obligations.AssembledLinesDecode : Prop :=
  (∀ l : AsmLine, l.wellFormed = true → ∃ i, decode l.word = .ok i) ∧
  (∀ x : Nat, x < 2 ^ 32 →
    decode (AsmLine.rev8 x).word = .ok (.rev8 (BitVec.ofNat 8 x)) ∧
    decode (AsmLine.rev16 x).word = .ok (.rev16 (BitVec.ofNat 16 x)) ∧
    decode (AsmLine.rev32 x).word = .ok (.rev32 (BitVec.ofNat 32 x)) ∧
    ∀ buf : BufferText, decode (AsmLine.crc buf x).word = .ok (.crc (BitVec.ofNat 32 x))) ∧
  (∀ n : Nat, n ≤ 255 → decode (AsmLine.rdtab n).word = .ok (.rdtab (BitVec.ofNat 8 n)))

/-! ### The Bit Reflector -/

/-- R84: `REV8`, from the command word on: the upper 24 bits of `ARG` are ignored, `VAL[7-k] = x[k]`,
`VAL[31:8] = 0`, and nothing else changes. -/
def Obligations.Rev8ReversesTheLowByte : Prop :=
  ∀ (arg : Word) (s : State), ∃ (x : Byte) (v : Word), decode (0x01#8 ++ arg) = .ok (.rev8 x) ∧
    exec (.rev8 x) s = .next { s with command := none, response := some ⟨.ok, v⟩ } ∧
    (∀ k, k < 8 → v.getLsbD (7 - k) = arg.getLsbD k) ∧ (∀ k, 8 ≤ k → v.getLsbD k = false)

/-- R85: `REV16`, likewise. -/
def Obligations.Rev16ReversesTheLowHalf : Prop :=
  ∀ (arg : Word) (s : State), ∃ (x : Half) (v : Word), decode (0x02#8 ++ arg) = .ok (.rev16 x) ∧
    exec (.rev16 x) s = .next { s with command := none, response := some ⟨.ok, v⟩ } ∧
    (∀ k, k < 16 → v.getLsbD (15 - k) = arg.getLsbD k) ∧ (∀ k, 16 ≤ k → v.getLsbD k = false)

/-- R86: `REV32`, likewise. -/
def Obligations.Rev32ReversesTheWord : Prop :=
  ∀ (arg : Word) (s : State), ∃ v : Word, decode (0x03#8 ++ arg) = .ok (.rev32 arg) ∧
    exec (.rev32 arg) s = .next { s with command := none, response := some ⟨.ok, v⟩ } ∧
    (∀ k, k < 32 → v.getLsbD (31 - k) = arg.getLsbD k)

/-- R80 and R81: the contract of `reverseN` for any width of input, and the cascade's two wider reversals meet it. -/
def Obligations.CascadeMeetsTheReflectorContract : Prop :=
  (∀ (w n : Nat) (x : BitVec w) (k : Nat), k < n → (reverseN n x).getLsbD (n - 1 - k) = x.getLsbD k) ∧
  (∀ x : Half, reverse16 x = reverse8 (x.extractLsb' 0 8) ++ reverse8 (x.extractLsb' 8 8)) ∧
  (∀ x : Word, reverse32 x = reverse16 (x.extractLsb' 0 16) ++ reverse16 (x.extractLsb' 16 16)) ∧
  (∀ x : Byte, reverse8 x = reverseN 8 x) ∧ (∀ x : Half, reverse16 x = reverseN 16 x) ∧
  (∀ x : Word, reverse32 x = reverseN 32 x)

/-- R82: the laws of the reflector. -/
def Obligations.ReflectorLaws : Prop :=
  (∀ x : Word, reverse32 (reverse32 x) = x) ∧ (∀ x : Half, reverse16 (reverse16 x) = x) ∧
  (∀ x : Byte, reverse8 (reverse8 x) = x) ∧
  (reverse8 0#8 = 0#8 ∧ reverse16 0#16 = 0#16 ∧ reverse32 0#32 = 0#32) ∧
  (reverse8 0xFF#8 = 0xFF#8 ∧ reverse16 0xFFFF#16 = 0xFFFF#16 ∧ reverse32 0xFFFFFFFF#32 = 0xFFFFFFFF#32 ∧
    reverse8 0xA5#8 = 0xA5#8) ∧
  (∀ n, n = 8 ∨ n = 16 ∨ n = 32 → ∀ x : BitVec n,
    (∀ k, k < n → x.getLsbD (n - 1 - k) = x.getLsbD k) → reverseN n x = x) ∧
  (∀ n, n = 8 ∨ n = 16 ∨ n = 32 → (Function.Bijective fun x : BitVec n => reverseN n x) ∧
    ∀ a b : BitVec n, reverseN n (a ^^^ b) = reverseN n a ^^^ reverseN n b)

/-- R86 and R82 (a), on the commands: `REV32` applied to its own result returns the operand. -/
def Obligations.Rev32TwiceReturnsTheOperand : Prop :=
  ∀ (x : Word) (s : State), ∃ v t u, exec (.rev32 x) s = .next t ∧ t.response = some ⟨.ok, v⟩ ∧
    exec (.rev32 v) t = .next u ∧ u.response = some ⟨.ok, x⟩

/-! ### The Table Builder -/

/-- R96: `BUILD` writes all 256 entries and sets `TV`, responds 0, and changes nothing else; with `ARG != 0` the
word is illegal. -/
def Obligations.BuildWritesTheWholeTable : Prop :=
  (∀ s : State, ∃ t : Table,
    exec .build s = .next { s with table := some t, command := none, response := some ⟨.ok, 0x00000000#32⟩ } ∧
    (∀ i : Byte, t.entry i = buildEntry 0xEDB88320#32 i) ∧
    State.tv { s with table := some t, command := none, response := some ⟨.ok, 0x00000000#32⟩ } = true) ∧
  decode 0x0400000000#40 = .ok .build ∧
  (∀ arg : Word, arg ≠ 0#32 → ∃ e, decode (0x04#8 ++ arg) = .error e)

/-- R94: a second `BUILD` leaves every entry and `TV` as they are. -/
def Obligations.SecondBuildChangesNoEntry : Prop :=
  (∀ s : State, ∃ t u, exec .build s = .next t ∧ exec .build t = .next u ∧ u.table = t.table ∧ u.tv = true) ∧
  (∀ s : State, s.TableSound → s.tv = true →
    ∃ t, exec .build s = .next t ∧ t.table = s.table ∧ t.tv = true ∧ t.response = some ⟨.ok, 0#32⟩)

/-- Entries worked bit by bit in R97, and the single-bit entries of R95 (c). -/
def Obligations.StandardTableEntries : Prop :=
  buildEntry RPOLY 0x01#8 = 0x77073096#32 ∧ buildEntry RPOLY 0x02#8 = 0xEE0E612C#32 ∧
  buildEntry RPOLY 0x04#8 = 0x076DC419#32 ∧ buildEntry RPOLY 0x08#8 = 0x0EDB8832#32 ∧
  buildEntry RPOLY 0x10#8 = 0x1DB71064#32 ∧ buildEntry RPOLY 0x20#8 = 0x3B6E20C8#32 ∧
  buildEntry RPOLY 0x40#8 = 0x76DC4190#32 ∧ buildEntry RPOLY 0x80#8 = 0xEDB88320#32 ∧
  buildEntry RPOLY 0xFF#8 = 0x2D02EF8D#32

/-- R95 (a) to (d), for any polynomial. -/
def Obligations.TableLawsForAnyPolynomial : Prop :=
  ∀ rp : Word, buildEntry rp 0x00#8 = 0#32 ∧ buildEntry rp 0x80#8 = rp ∧
    (∀ j, j < 8 → buildEntry rp (0x80#8 >>> j) = shiftSteps rp j rp) ∧
    (∀ a b : Byte, buildEntry rp (a ^^^ b) = buildEntry rp a ^^^ buildEntry rp b)

/-- R95 (e): the top bytes of this hardware's table are pairwise different. -/
def Obligations.TopBytesOfTheTableDiffer : Prop :=
  ∀ i j : Byte, (buildEntry RPOLY i).extractLsb' 24 8 = (buildEntry RPOLY j).extractLsb' 24 8 → i = j

/-- R93: every width of `V` of 8 bits or more gives the same entry, and with 32 bits the final `V[31:8]` equals
`A[23:0]`. -/
def Obligations.WorkingValueWidthDoesNotMatter : Prop :=
  ∀ (rp : Word) (i : Byte), (∀ vw : Nat, 8 ≤ vw → (builderFinal vw rp i).2 = buildEntry rp i) ∧
    (builderFinal 32 rp i).1.extractLsb' 8 24 = (buildEntry rp i).extractLsb' 0 24

/-- `41_table_builder.md` R92: an entry is what eight conditional shifts give, for every polynomial. The shift form is
general knowledge by the spec's own mark (its K1). -/
def Obligations.TableEntryIsEightShifts : Prop :=
  ∀ (rp : Word) (i : Byte), buildEntry rp i = shiftXorEntry rp i

/-! ### The Checksum Engine -/

/-- R101, R102, R105: on a fully readable buffer `CRC` answers the pre-complemented seed, stepped once per byte
in order, post-complemented; and it changes nothing else. -/
def Obligations.CrcComputesTheChecksum : Prop :=
  ∀ (s : State) (t : Table) (data : List Byte) (seed : Word), s.table = some t →
    s.buffer.len = data.length → (∀ k, k < data.length → memRead s.buffer k = data[k]?) →
    exec (.crc seed) s = .next { s with command := none, response := some ⟨.ok,
      data.foldl (fun (acc : Word) (d : Byte) => t.entry (d ^^^ acc.extractLsb' 0 8) ^^^ (acc >>> 8)) (seed ^^^ 0xFFFFFFFF#32)
        ^^^ 0xFFFFFFFF#32⟩ }

/-- R104: the empty sequence returns the seed, for every table and every seed. -/
def Obligations.EmptyBufferReturnsTheSeed : Prop :=
  ∀ (s : State) (seed : Word), s.tv = true → s.buffer.len = 0 →
    exec (.crc seed) s = .next { s with command := none, response := some ⟨.ok, seed⟩ }

/-- R133: a buffer with an unreadable index below `LEN` ends `CRC` in `BufferFault`, with no partial result and no
other change; only `CRC` raises it, with `TV = 1` and `LEN > 0`. -/
def Obligations.UnreadableByteRaisesBufferFault : Prop :=
  (∀ (s : State) (seed : Word) (k : Nat), s.tv = true → k < s.buffer.len → memRead s.buffer k = none →
    exec (.crc seed) s =
      .next { s with command := none, response := some ⟨.faulted .bufferFault, 0#32⟩ }) ∧
  (∀ (i : Instr) (s t : State) (v : Word), exec i s = .next t → t.response = some ⟨.faulted .bufferFault, v⟩ →
    (∃ seed, i = .crc seed) ∧ s.tv = true ∧ 0 < s.buffer.len ∧ ∃ k < s.buffer.len, memRead s.buffer k = none) ∧
  (Status.faulted .bufferFault).code = 0x03#8

/-- R132: `CRC`, whatever its buffer, and `RDTAB` fault while `TV = 0` and change nothing; no other command raises
`TableNotBuilt`. -/
def Obligations.TableReadBeforeBuildFaults : Prop :=
  (∀ s : State, s.tv = false →
    (∀ seed, exec (.crc seed) s =
      .next { s with command := none, response := some ⟨.faulted .tableNotBuilt, 0#32⟩ }) ∧
    (∀ n, exec (.rdtab n) s =
      .next { s with command := none, response := some ⟨.faulted .tableNotBuilt, 0#32⟩ })) ∧
  (∀ (i : Instr) (s t : State) (v : Word), exec i s = .next t →
    t.response = some ⟨.faulted .tableNotBuilt, v⟩ →
    s.tv = false ∧ ((∃ seed, i = .crc seed) ∨ ∃ n, i = .rdtab n)) ∧
  (Status.faulted .tableNotBuilt).code = 0x02#8

/-- R109: chaining. Supplying a result as the next seed is the same as one call on the concatenation. -/
def Obligations.ChainedChecksumsEqualOneChecksum : Prop :=
  ∀ (s : State) (A B : List Byte) (seed : Word), s.tv = true →
    ∃ t1 t2 t3 v1 v2,
      exec (.crc seed) (s.bind (readableBuffer A)) = .next t1 ∧ t1.response = some ⟨.ok, v1⟩ ∧
      exec (.crc v1) (t1.bind (readableBuffer B)) = .next t2 ∧ t2.response = some ⟨.ok, v2⟩ ∧
      exec (.crc seed) (s.bind (readableBuffer (A ++ B))) = .next t3 ∧ t3.response = some ⟨.ok, v2⟩

/-- R92 with R102: with the table `BUILD` writes, `CRC` answers the checksum that needs no table: each byte
XORed in and eight conditional shifts (general knowledge by the spec's own mark, its K1). -/
def Obligations.CrcEqualsTheBitSerialChecksum : Prop :=
  ∀ (s : State) (data : List Byte) (seed : Word), s.TableSound → s.tv = true →
    exec (.crc seed) (s.bind (readableBuffer data)) =
      .next { s.bind (readableBuffer data) with command := none,
                                                response := some ⟨.ok, bitSerialCrc 0xEDB88320#32 data seed⟩ }

/-- R111: inputs of equal length that differ in exactly one byte have different checksums. -/
def Obligations.OneChangedByteChangesTheChecksum : Prop :=
  ∀ (s : State) (front back : List Byte) (d d' : Byte) (seed : Word), s.TableSound → s.tv = true → d ≠ d' →
    ∃ t t' v v',
      exec (.crc seed) (s.bind (readableBuffer (front ++ d :: back))) = .next t ∧ t.response = some ⟨.ok, v⟩ ∧
      exec (.crc seed) (s.bind (readableBuffer (front ++ d' :: back))) = .next t' ∧
      t'.response = some ⟨.ok, v'⟩ ∧ v ≠ v'

/-- R111: for a fixed byte the step is a bijection of the accumulator. -/
def Obligations.ChecksumStepIsBijective : Prop :=
  ∀ (t : Table) (d : Byte), (∀ i : Byte, t.entry i = buildEntry RPOLY i) →
    Function.Bijective fun acc : Word => crcStep t acc d

/-- `42_checksum_engine.md` R105, corner cases: with seed 0xFFFFFFFF, zero bytes leave the accumulator at zero. -/
def Obligations.ZeroBytesAreInvisibleToTheComplementedSeed : Prop :=
  ∀ (s : State) (n : Nat), s.TableSound → s.tv = true →
    ∃ t, exec (.crc 0xFFFFFFFF#32) (s.bind (readableBuffer (List.replicate n 0x00#8))) = .next t ∧
      t.response = some ⟨.ok, 0xFFFFFFFF#32⟩

/-- R110: the reference results, after `BUILD` from any state. That a quoted string stands for these bytes is
log 12. -/
def Obligations.ReferenceChecksums : Prop :=
  ∀ s : State, ∃ t, exec .build s = .next t ∧
    (∀ data v, (data, v) ∈ [([], 0x00000000#32), ([0x61#8], 0xE8B7BE43#32),
        ([0x61#8, 0x62#8, 0x63#8, 0x64#8], 0xED82CD11#32),
        ([0x31#8, 0x32#8, 0x33#8, 0x34#8, 0x35#8, 0x36#8, 0x37#8, 0x38#8, 0x39#8], 0xCBF43926#32)] →
      ∃ u, exec (.crc 0#32) (t.bind (readableBuffer data)) = .next u ∧ u.response = some ⟨.ok, v⟩)

/-! ### Inspection -/

/-- R115: `RDTAB` answers the entry its byte selects, or faults while `TV = 0`; a wider index is illegal, not entry 0. -/
def Obligations.RdtabReadsOneEntry : Prop :=
  (∀ (s : State) (t : Table) (n : Byte), s.table = some t →
    exec (.rdtab n) s = .next { s with command := none, response := some ⟨.ok, t.entry n⟩ }) ∧
  (∀ (s : State) (n : Byte), s.tv = false →
    exec (.rdtab n) s = .next { s with command := none, response := some ⟨.faulted .tableNotBuilt, 0#32⟩ }) ∧
  (∀ arg : Word, (arg.extractLsb' 8 24 = 0#24 → decode (0x06#8 ++ arg) = .ok (.rdtab (arg.extractLsb' 0 8))) ∧
    (arg.extractLsb' 8 24 ≠ 0#24 → ∃ e, decode (0x06#8 ++ arg) = .error e))

/-- R116: `RDPOLY`. -/
def Obligations.RdpolyReadsThePolynomial : Prop :=
  (∀ s : State, exec .rdpoly s = .next { s with command := none, response := some ⟨.ok, 0x04C11DB7#32⟩ }) ∧
  decode 0x0700000000#40 = .ok .rdpoly ∧
  (∀ arg : Word, arg ≠ 0#32 → ∃ e, decode (0x07#8 ++ arg) = .error e)

/-- R117: `RDRPOLY`; its response is `REV32` of `RDPOLY`'s, and `RDTAB 128`'s once the table is built. -/
def Obligations.RdrpolyReadsTheReflectedPolynomial : Prop :=
  (∀ s : State, exec .rdrpoly s = .next { s with command := none, response := some ⟨.ok, 0xEDB88320#32⟩ }) ∧
  decode 0x0800000000#40 = .ok .rdrpoly ∧
  (∀ arg : Word, arg ≠ 0#32 → ∃ e, decode (0x08#8 ++ arg) = .error e) ∧
  (∀ s : State, ∃ t v u w, exec .rdpoly s = .next t ∧ t.response = some ⟨.ok, v⟩ ∧
    exec (.rev32 v) t = .next u ∧ exec .rdrpoly s = .next w ∧ w.response = u.response) ∧
  (∀ s : State, s.TableSound → s.tv = true →
    ∃ t u, exec .rdrpoly s = .next t ∧ exec (.rdtab 128#8) s = .next u ∧ u.response = t.response)

/-- R118: `RDSTAT`: bit 0 is `TV`, bits 31:1 are 0. -/
def Obligations.RdstatReadsTheStatusWord : Prop :=
  (∀ s : State, ∃ v : Word, exec .rdstat s = .next { s with command := none, response := some ⟨.ok, v⟩ } ∧
    v.getLsbD 0 = s.tv ∧ ∀ k, 1 ≤ k → v.getLsbD k = false) ∧
  decode 0x0900000000#40 = .ok .rdstat ∧
  (∀ arg : Word, arg ≠ 0#32 → ∃ e, decode (0x09#8 ++ arg) = .error e)

/-- R119: an inspection or `REV` command writes nothing and does not change the response of any command issued
after it. That the buffer is still in `State` after the response is log 7. -/
def Obligations.InspectionChangesNoOtherResponse : Prop :=
  ∀ (i j : Instr) (s : State), i ≠ .build → (∀ seed, i ≠ .crc seed) →
    ∃ t u u' r, exec i s = .next t ∧ t.table = s.table ∧ t.tv = s.tv ∧ t.buffer = s.buffer ∧
      exec j s = .next u ∧ exec j t = .next u' ∧ u.response = some r ∧ u'.response = some r

/-! ### Faults, frames, whole-machine rules -/

/-- R135, R136: which response a command gets: decode first, then the table-valid check, then the buffer. -/
def Obligations.FaultCausesAndPriority : Prop :=
  ∀ (s : State) (cw : CmdWord), s.command = some cw → s.waits = true → ∃ t r, step s = .next t ∧
    t.response = some r ∧
    (∀ e, decode cw = .error e → r = ⟨.faulted .illegalCommand, 0#32⟩) ∧
    (∀ i, decode cw = .ok i →
      (((∃ seed, i = .crc seed) ∨ ∃ n, i = .rdtab n) ∧ s.tv = false → r = ⟨.faulted .tableNotBuilt, 0#32⟩) ∧
      ((∃ seed, i = .crc seed) ∧ s.tv = true ∧ (∃ k < s.buffer.len, memRead s.buffer k = none) →
        r = ⟨.faulted .bufferFault, 0#32⟩) ∧
      (¬ (((∃ seed, i = .crc seed) ∨ ∃ n, i = .rdtab n) ∧ s.tv = false) →
        ¬ ((∃ seed, i = .crc seed) ∧ s.tv = true ∧ ∃ k < s.buffer.len, memRead s.buffer k = none) →
        r.st = .ok))

/-- R130, in the form R140 asks for: a legal command whose preconditions hold (a table, where it reads one; a fully
readable buffer, for `CRC`) is answered without a fault. -/
def Obligations.PreconditionsExcludeFaults : Prop :=
  ∀ (s : State) (cw : CmdWord) (i : Instr), s.command = some cw → s.waits = true → decode cw = .ok i →
    (((∃ seed, i = .crc seed) ∨ ∃ n, i = .rdtab n) → s.tv = true) →
    ((∃ seed, i = .crc seed) → s.buffer.readable) →
    ∃ t r, step s = .next t ∧ t.response = some r ∧ t.noFault

/-- R134: a fault response carries `VAL = 0` and nothing else changes: the command is over. -/
def Obligations.FaultingCommandChangesNothing : Prop :=
  ∀ (s t : State) (cw : CmdWord) (r : Response), s.command = some cw → s.waits = true → step s = .next t →
    t.response = some r → r.isFault = true →
    r.val = 0#32 ∧ t = { s.afterWait with command := none, response := some r }

/-- The frame of every command: the buffer reads as before at every index, the host's moves and the parameter stay;
and every command but `BUILD` leaves `T` and `TV` as they are (`42_checksum_engine.md` R103, `20_memory.md` R42). That
the buffer is still in `State` after the response is log 7. -/
def Obligations.CommandFrame : Prop :=
  ∀ (i : Instr) (s : State), ∃ t, exec i s = .next t ∧ t.buffer.len = s.buffer.len ∧
    (∀ k, memRead t.buffer k = memRead s.buffer k) ∧ t.hostMoves = s.hostMoves ∧ t.config = s.config ∧
    (i ≠ .build → t.tv = s.tv ∧ t.table = s.table)

/-- The table changes by `BUILD` or reset only, over every step (`10_state.md` R23, R25; `60_exceptions.md` R143). -/
def Obligations.OnlyBuildAndResetChangeTheTable : Prop :=
  ∀ s t : State, step s = .next t → t.table ≠ s.table →
    (∃ cw, s.command = some cw ∧ decode cw = .ok .build ∧ t.tv = true ∧
      ∀ i tab, t.table = some tab → tab.entry i = buildEntry RPOLY i) ∨
    (∃ rest, s.hostMoves = .reset :: rest ∧ t.tv = false)

/-- R33: a response is a function of the command, the bound buffer and (`TV`, `T`): two states that agree on
these give the same response, whatever else they hold. -/
def Obligations.ResponseDependsOnTableAndBufferOnly : Prop :=
  ∀ (s s' : State) (cw : CmdWord), s.command = some cw → s'.command = some cw → s.waits = true →
    s'.waits = true → s.table = s'.table →
    (∀ k, memRead s.buffer k = memRead s'.buffer k) → s.buffer.len = s'.buffer.len →
    ∃ t t' r, step s = .next t ∧ step s' = .next t' ∧ t.response = some r ∧ t'.response = some r ∧
      t.table = t'.table

/-- R42, R62: every command but `CRC` ignores the buffer binding. -/
def Obligations.OnlyCrcReadsTheBuffer : Prop :=
  ∀ (i : Instr) (s : State) (b : Buffer), (∀ seed, i ≠ .crc seed) →
    ∃ t t' r, exec i s = .next t ∧ exec i (s.bind b) = .next t' ∧ t.response = some r ∧ t'.response = some r ∧
      t'.table = t.table

/-- R50 (b), (c): every table entry read through `RDTAB` in a state that meets the invariant is the one `BUILD`
writes. -/
def Obligations.RdtabReturnsTheBuiltEntry : Prop :=
  ∀ (s : State) (n : Byte), s.Inv → s.tv = true →
    ∃ t, exec (.rdtab n) s = .next t ∧ t.response = some ⟨.ok, buildEntry 0xEDB88320#32 n⟩

/-- The invariant holds at reset. -/
def Obligations.ResetStateMeetsTheInvariant : Prop := State.reset.Inv

/-- Every step keeps the invariant: the table is absent or holds exactly what `BUILD` writes, the buffer is
canonical and of a length that can be presented, a command in progress has no response yet. -/
def Obligations.EveryStepKeepsTheInvariant : Prop :=
  ∀ s t : State, s.Inv → step s = .next t → t.Inv
end

