-- ==== Sys2Proof/Laws/Encoding.lean ====
section
/-! SUPPORT. The fields of a command word, and its selection by a row, one field at a time. -/

namespace Sys2Proof

@[simp] theorem opField_commandWord (op : Byte) (arg : Word) : opField (commandWord op arg) = op := by
  apply BitVec.eq_of_getLsbD_eq
  intro i hi
  have h : ¬ 32 + i < 32 := by omega
  simp only [opField, commandWord, BitVec.getLsbD_extractLsb', BitVec.getLsbD_append, h, if_false]
  simp [hi]

@[simp] theorem argField_commandWord (op : Byte) (arg : Word) : argField (commandWord op arg) = arg := by
  apply BitVec.eq_of_getLsbD_eq
  intro i hi
  simp only [argField, commandWord, BitVec.getLsbD_extractLsb', BitVec.getLsbD_append]
  simp [hi]

/-- A command word is its two fields (R61). -/
theorem commandWord_fields (cw : CmdWord) : commandWord (opField cw) (argField cw) = cw := by
  apply BitVec.eq_of_getLsbD_eq
  intro i hi
  simp only [commandWord, opField, argField, BitVec.getLsbD_append, BitVec.getLsbD_extractLsb']
  split
  · next h => simp [h]
  · next h =>
    have h1 : i - 32 < 8 := by omega
    have h2 : 32 + (i - 32) = i := by omega
    simp [h1, h2]

/-- Two command words are equal when both fields are. -/
theorem word_eq_iff (cw cw' : CmdWord) : cw = cw' ↔ opField cw = opField cw' ∧ argField cw = argField cw' := by
  constructor
  · rintro rfl; exact ⟨rfl, rfl⟩
  · rintro ⟨h1, h2⟩
    rw [← commandWord_fields cw, ← commandWord_fields cw', h1, h2]

theorem opField_and (a b : CmdWord) : opField (a &&& b) = opField a &&& opField b := by
  apply BitVec.eq_of_getLsbD_eq
  intro i hi
  simp [opField, hi]

theorem argField_and (a b : CmdWord) : argField (a &&& b) = argField a &&& argField b := by
  apply BitVec.eq_of_getLsbD_eq
  intro i hi
  simp [argField, hi]

/-- A row selects a word field by field (R65). -/
theorem selects_iff (r : OpcodeRow) (cw : CmdWord) : r.selects cw = true ↔
    opField cw &&& opField r.mask = opField r.bits ∧ argField cw &&& argField r.mask = argField r.bits := by
  simp [OpcodeRow.selects, word_eq_iff, opField_and, argField_and]

/-- `selects`, as a computation on the two fields. -/
theorem selects_commandWord (r : OpcodeRow) (op : Byte) (arg : Word) : r.selects (commandWord op arg) =
    (decide (op &&& opField r.mask = opField r.bits) && decide (arg &&& argField r.mask = argField r.bits)) := by
  rw [Bool.eq_iff_iff, selects_iff]
  simp

/-- The byte operand of `RDTAB` and `REV8` survives its placement in `ARG` (R64, R69). -/
@[simp] theorem argByte_setWidth (x : Byte) : argByte (x.setWidth 32) = x := by
  apply BitVec.eq_of_getLsbD_eq
  intro i hi
  have : i < 32 := by omega
  simp [argByte, hi, this]

@[simp] theorem argHalf_setWidth (x : Half) : argHalf (x.setWidth 32) = x := by
  apply BitVec.eq_of_getLsbD_eq
  intro i hi
  have : i < 32 := by omega
  simp [argHalf, hi, this]

@[simp] theorem argAboveByte_setWidth (x : Byte) : argAboveByte (x.setWidth 32) = 0#24 := by
  apply BitVec.eq_of_getLsbD_eq
  intro i hi
  simp [argAboveByte, BitVec.getLsbD_of_ge]

/-- The bits of a byte operand all lie in `ARG[7:0]`. -/
theorem setWidth_and_above (x : Byte) : x.setWidth 32 &&& 0xFFFFFF00#32 = 0#32 := by
  revert x; decide

/-- Masking with all ones changes nothing. -/
theorem and_ones32 (x : Word) : x &&& 0xFFFFFFFF#32 = x := by
  rw [show 0xFFFFFFFF#32 = BitVec.allOnes 32 by decide, BitVec.and_allOnes]

theorem and_ones8 (x : Byte) : x &&& 0xFF#8 = x := by
  rw [show 0xFF#8 = BitVec.allOnes 8 by decide, BitVec.and_allOnes]

/-- `ARG[7:0]`, back in place. -/
theorem setWidth_argByte (a : Word) : (argByte a).setWidth 32 = a &&& 0x000000FF#32 := by
  apply BitVec.eq_of_getLsbD_eq
  intro i hi
  simp only [argByte, BitVec.getLsbD_setWidth, BitVec.getLsbD_extractLsb', BitVec.getLsbD_and, hi]
  interval_cases i <;> simp

/-- `ARG[15:0]`, back in place. -/
theorem setWidth_argHalf (a : Word) : (argHalf a).setWidth 32 = a &&& 0x0000FFFF#32 := by
  apply BitVec.eq_of_getLsbD_eq
  intro i hi
  simp only [argHalf, BitVec.getLsbD_setWidth, BitVec.getLsbD_extractLsb', BitVec.getLsbD_and, hi]
  interval_cases i <;> simp

/-- `ARG[31:8]` is zero exactly when the mask of `RDTAB`'s row says so (R65, R67 (d)). -/
theorem argAboveByte_eq_zero (a : Word) : argAboveByte a = 0#24 ↔ a &&& 0xFFFFFF00#32 = 0#32 := by
  constructor
  · intro h
    apply BitVec.eq_of_getLsbD_eq
    intro i hi
    have := congrArg (fun v => v.getLsbD (i - 8)) h
    simp only [argAboveByte, BitVec.getLsbD_extractLsb'] at this
    interval_cases i <;> simp_all
  · intro h
    apply BitVec.eq_of_getLsbD_eq
    intro i hi
    have := congrArg (fun v => v.getLsbD (8 + i)) h
    simp only [argAboveByte, BitVec.getLsbD_extractLsb', BitVec.getLsbD_and] at this ⊢
    interval_cases i <;> simp_all

/-- The ten cases the decoder distinguishes on `OP`. -/
theorem opcode_cases (op : Byte) : op = 0x01#8 ∨ op = 0x02#8 ∨ op = 0x03#8 ∨ op = 0x04#8 ∨ op = 0x05#8 ∨
    op = 0x06#8 ∨ op = 0x07#8 ∨ op = 0x08#8 ∨ op = 0x09#8 ∨ op = 0x00#8 ∨ 0x0A#8 ≤ op := by
  revert op; decide

end Sys2Proof
end

