-- ==== Sys2Proof/Laws/State.lean ====
section
/-! SUPPORT. What each state operation does to each field, once, so that no proof unfolds a record update. -/

namespace Sys2Proof.Machine

section answer
variable (r : Response) (s : State)
@[simp] theorem answer_table : (answer r s).table = s.table := rfl
@[simp] theorem answer_buffer : (answer r s).buffer = s.buffer := rfl
@[simp] theorem answer_command : (answer r s).command = none := rfl
@[simp] theorem answer_response : (answer r s).response = some r := rfl
@[simp] theorem answer_hostMoves : (answer r s).hostMoves = s.hostMoves := rfl
@[simp] theorem answer_config : (answer r s).config = s.config := rfl
@[simp] theorem answer_tv : (answer r s).tv = s.tv := rfl
@[simp] theorem answer_answer (r' : Response) : answer r' (answer r s) = answer r' s := rfl
end answer

section setTable
variable (t : Table) (s : State)
@[simp] theorem setTable_table : (s.setTable t).table = some t := rfl
@[simp] theorem setTable_buffer : (s.setTable t).buffer = s.buffer := rfl
@[simp] theorem setTable_command : (s.setTable t).command = s.command := rfl
@[simp] theorem setTable_response : (s.setTable t).response = s.response := rfl
@[simp] theorem setTable_hostMoves : (s.setTable t).hostMoves = s.hostMoves := rfl
@[simp] theorem setTable_config : (s.setTable t).config = s.config := rfl
@[simp] theorem setTable_tv : (s.setTable t).tv = true := rfl
end setTable

section advanceHost
variable (rest : List HostMove) (s : State)
@[simp] theorem advanceHost_table : (advanceHost rest s).table = s.table := rfl
@[simp] theorem advanceHost_buffer : (advanceHost rest s).buffer = s.buffer := rfl
@[simp] theorem advanceHost_command : (advanceHost rest s).command = s.command := rfl
@[simp] theorem advanceHost_response : (advanceHost rest s).response = s.response := rfl
@[simp] theorem advanceHost_hostMoves : (advanceHost rest s).hostMoves = rest := rfl
@[simp] theorem advanceHost_config : (advanceHost rest s).config = s.config := rfl
@[simp] theorem advanceHost_tv : (advanceHost rest s).tv = s.tv := rfl
end advanceHost

section present
variable (cw : CmdWord) (bytes : List (Option Byte)) (rest : List HostMove) (s : State)
@[simp] theorem present_table : (present cw bytes rest s).table = s.table := rfl
@[simp] theorem present_buffer : (present cw bytes rest s).buffer = Buffer.ofBytes bytes := rfl
@[simp] theorem present_command : (present cw bytes rest s).command = some cw := rfl
@[simp] theorem present_response : (present cw bytes rest s).response = none := rfl
@[simp] theorem present_hostMoves : (present cw bytes rest s).hostMoves = rest := rfl
@[simp] theorem present_config : (present cw bytes rest s).config = s.config := rfl
@[simp] theorem present_tv : (present cw bytes rest s).tv = s.tv := rfl
end present

section assertReset
variable (rest : List HostMove) (s : State)
@[simp] theorem assertReset_table : (assertReset rest s).table = none := rfl
@[simp] theorem assertReset_buffer : (assertReset rest s).buffer = Buffer.empty := rfl
@[simp] theorem assertReset_command : (assertReset rest s).command = none := rfl
@[simp] theorem assertReset_response : (assertReset rest s).response = none := rfl
@[simp] theorem assertReset_hostMoves : (assertReset rest s).hostMoves = rest := rfl
@[simp] theorem assertReset_config : (assertReset rest s).config = s.config := rfl
@[simp] theorem assertReset_tv : (assertReset rest s).tv = false := rfl
end assertReset

section stageWord
variable (cw : CmdWord) (s : State)
@[simp] theorem stageWord_table : (stageWord cw s).table = s.table := rfl
@[simp] theorem stageWord_buffer : (stageWord cw s).buffer = s.buffer := rfl
@[simp] theorem stageWord_command : (stageWord cw s).command = some cw := rfl
@[simp] theorem stageWord_response : (stageWord cw s).response = s.response := rfl
@[simp] theorem stageWord_hostMoves : (stageWord cw s).hostMoves = .await :: s.hostMoves := rfl
@[simp] theorem stageWord_config : (stageWord cw s).config = s.config := rfl
end stageWord

end Sys2Proof.Machine
end

