-- ==== Sys2Proof/Laws/Ops.lean ====
section
/-! SUPPORT. What the shared operations and the step can do, said once. -/

namespace Sys2Proof.Machine

/-- Everything `respond` can do. -/
theorem respond_next (v : Word) (s t : State) : respond v s = .next t ↔ t = answer ⟨.ok, v⟩ s := by
  simp only [respond, Host.Outcome.next.injEq]; exact eq_comm

/-- Everything `raise` can do. -/
theorem raise_next (f : Fault) (s t : State) : raise f s = .next t ↔ t = answer ⟨.faulted f, 0#32⟩ s := by
  simp only [raise, Host.Outcome.next.injEq]; exact eq_comm

/-- Reading entry `i` of a table written by `f` gives `f i`. -/
@[simp] theorem entry_written (f : Byte → Word) (i : Byte) : (Table.written f).entry i = f i := by
  simp [Table.entry, Table.written]

@[simp] theorem entry_buildTable (rp : Word) (i : Byte) : (buildTable rp).entry i = buildEntry rp i :=
  entry_written _ i

/-- Two tables with equal entries are equal. -/
theorem table_ext {t t' : Table} (h : ∀ i : Byte, t.entry i = t'.entry i) : t = t' := by
  apply Vector.ext
  intro i hi
  have := h (BitVec.ofNat 8 i)
  simpa [Table.entry, BitVec.toNat_ofNat, Nat.mod_eq_of_lt hi] using this

/-- The loop of `CRC`, one byte at a time. -/
theorem absorb_succ (t : Table) (buf : Buffer) (n k : Nat) (acc : Word) :
    absorb t buf (n + 1) k acc = (memRead buf k).bind fun d => absorb t buf n (k + 1) (crcStep t acc d) := by
  cases h : memRead buf k <;> simp [absorb, h]

/-- The loop of `CRC` completes exactly when every index it visits is readable. -/
theorem absorb_isSome (t : Table) (buf : Buffer) (n : Nat) : ∀ (k : Nat) (acc : Word),
    (absorb t buf n k acc).isSome = true ↔ ∀ j, k ≤ j → j < k + n → (memRead buf j).isSome = true := by
  induction n with
  | zero => intro k acc; simp only [absorb, Option.isSome_some, true_iff]; intro j h1 h2; omega
  | succ n ih =>
    intro k acc
    rw [absorb_succ]
    cases h : memRead buf k with
    | none =>
      simp only [Option.bind_none, Option.isSome_none, Bool.false_eq_true, false_iff]
      intro hall
      simpa [h] using hall k (Nat.le_refl k) (by omega)
    | some d =>
      rw [Option.bind_some, ih]
      constructor
      · intro hall j h1 h2
        rcases Nat.eq_or_lt_of_le h1 with rfl | hlt
        · simp [h]
        · exact hall j hlt (by omega)
      · intro hall j h1 h2
        exact hall j (by omega) (by omega)

/-- Everything a step with no command in progress can do. -/
theorem idleStep_next {s t : State} (h : idleStep s = .next t) :
    (s.hostMoves = [] ∧ t = s) ∨
    (∃ rest, s.hostMoves = .await :: rest ∧ t = advanceHost rest s) ∨
    (∃ rest, s.hostMoves = .reset :: rest ∧ t = assertReset rest s) ∨
    (∃ cw bytes rest, s.hostMoves = .issue cw bytes :: rest ∧
      WellFormed.binding s.config bytes = true ∧ t = present cw bytes rest s) := by
  unfold idleStep at h
  split at h
  · next hm => exact .inl ⟨hm, (Host.Outcome.next.inj h).symm⟩
  · next rest hm => exact .inr (.inl ⟨rest, hm, (Host.Outcome.next.inj h).symm⟩)
  · next rest hm => exact .inr (.inr (.inl ⟨rest, hm, (Host.Outcome.next.inj h).symm⟩))
  · next cw bytes rest hm =>
    split at h
    · next hw => exact .inr (.inr (.inr ⟨cw, bytes, rest, hm, hw, (Host.Outcome.next.inj h).symm⟩))
    · cases h

/-- Everything a step with a command in progress can do. -/
theorem busyStep_next {cw : CmdWord} {s t : State} (h : busyStep cw s = .next t) :
    (∃ rest, s.hostMoves = .reset :: rest ∧ t = assertReset rest s) ∨
    (∃ rest, (s.hostMoves = rest ∧ rest = [] ∨ s.hostMoves = .await :: rest) ∧
      runCommand cw (advanceHost rest s) = .next t) := by
  unfold busyStep at h
  split at h
  · next hm =>
    refine .inr ⟨[], .inl ⟨hm, rfl⟩, ?_⟩
    have : advanceHost [] s = s := by cases s; simp_all [advanceHost]
    rwa [this]
  · next rest hm => exact .inr ⟨rest, .inr hm, h⟩
  · next rest hm => exact .inl ⟨rest, hm, (Host.Outcome.next.inj h).symm⟩
  · cases h

/-- Running a command either executes the decoded command or raises `IllegalCommand`. -/
theorem runCommand_cases (cw : CmdWord) (s : State) :
    (∃ i, decode cw = .ok i ∧ runCommand cw s = exec i s) ∨
    (∃ e, decode cw = .error e ∧ runCommand cw s = raise .illegalCommand s) := by
  cases h : decode cw with
  | ok i => exact .inl ⟨i, rfl, by simp [runCommand, h]⟩
  | error e => exact .inr ⟨e, rfl, by simp [runCommand, h]⟩

end Sys2Proof.Machine
end

