-- ==== Sys2Proof/Laws/Exec.lean ====
section
/-! SUPPORT. What each meaning can do, said once: the provers cite these and do not unfold a meaning. -/

namespace Sys2Proof.Machine

theorem execRev8_eq (x : Byte) (s : State) : exec (.rev8 x) s = .next (answer ⟨.ok, zextByte (reverse8 x)⟩ s) := rfl

theorem execRev16_eq (x : Half) (s : State) :
    exec (.rev16 x) s = .next (answer ⟨.ok, zextHalf (reverse16 x)⟩ s) := rfl

theorem execRev32_eq (x : Word) (s : State) : exec (.rev32 x) s = .next (answer ⟨.ok, reverse32 x⟩ s) := rfl

theorem execBuild_eq (s : State) :
    exec .build s = .next (answer ⟨.ok, 0#32⟩ (s.setTable (buildTable RPOLY))) := rfl

theorem execRdpoly_eq (s : State) : exec .rdpoly s = .next (answer ⟨.ok, POLY⟩ s) := rfl

theorem execRdrpoly_eq (s : State) : exec .rdrpoly s = .next (answer ⟨.ok, RPOLY⟩ s) := rfl

theorem execRdstat_eq (s : State) : exec .rdstat s = .next (answer ⟨.ok, s.statusWord⟩ s) := rfl

theorem execRdtab_unbuilt {s : State} (h : s.table = none) (i : Byte) :
    exec (.rdtab i) s = .next (answer ⟨.faulted .tableNotBuilt, 0#32⟩ s) := by
  simp [exec, execRdtab, h, raise]

theorem execRdtab_built {s : State} {t : Table} (h : s.table = some t) (i : Byte) :
    exec (.rdtab i) s = .next (answer ⟨.ok, t.entry i⟩ s) := by
  simp [exec, execRdtab, h, respond]

theorem execCrc_unbuilt {s : State} (h : s.table = none) (seed : Word) :
    exec (.crc seed) s = .next (answer ⟨.faulted .tableNotBuilt, 0#32⟩ s) := by
  simp [exec, execCrc, h, raise]

theorem execCrc_built {s : State} {t : Table} (h : s.table = some t) (seed : Word) :
    exec (.crc seed) s = .next (answer
      (match absorb t s.buffer s.buffer.len 0 (seed ^^^ FMASK) with
        | none => ⟨.faulted .bufferFault, 0#32⟩
        | some acc => ⟨.ok, acc ^^^ FMASK⟩) s) := by
  simp only [exec, execCrc, h]
  split <;> simp_all [raise, respond]

/-- The block after a command, but for the answer: only `BUILD` leaves anything new. -/
def blockAfter (i : Instr) (s : State) : State :=
  match i with
  | .build => s.setTable (buildTable RPOLY)
  | .rev8 _ | .rev16 _ | .rev32 _ | .crc _ | .rdtab _ | .rdpoly | .rdrpoly | .rdstat => s

/-- Everything a meaning can do: answer the command, and for `BUILD` write the table. -/
theorem exec_shape (i : Instr) (s : State) : ∃ r, exec i s = .next (answer r (blockAfter i s)) := by
  cases i with
  | rev8 x => exact ⟨_, execRev8_eq x s⟩
  | rev16 x => exact ⟨_, execRev16_eq x s⟩
  | rev32 x => exact ⟨_, execRev32_eq x s⟩
  | build => exact ⟨_, execBuild_eq s⟩
  | crc seed =>
    cases h : s.table with
    | none => exact ⟨_, execCrc_unbuilt h seed⟩
    | some t => exact ⟨_, execCrc_built h seed⟩
  | rdtab n =>
    cases h : s.table with
    | none => exact ⟨_, execRdtab_unbuilt h n⟩
    | some t => exact ⟨_, execRdtab_built h n⟩
  | rdpoly => exact ⟨_, execRdpoly_eq s⟩
  | rdrpoly => exact ⟨_, execRdrpoly_eq s⟩
  | rdstat => exact ⟨_, execRdstat_eq s⟩

/-- The loop of `CRC` over bytes that are all readable is the fold of `crc_step`. -/
theorem absorb_fold (t : Table) (buf : Buffer) (data : List Byte) : ∀ (k : Nat) (acc : Word),
    (∀ j, j < data.length → memRead buf (k + j) = data[j]?) →
    absorb t buf data.length k acc = some (data.foldl (crcStep t) acc) := by
  induction data with
  | nil => intros; rfl
  | cons d ds ih =>
    intro k acc h
    have h0 : memRead buf k = some d := by simpa using h 0 (by simp)
    simp only [List.length_cons, absorb_succ, h0, Option.bind_some, List.foldl_cons]
    refine ih (k + 1) _ fun j hj => ?_
    have := h (j + 1) (by simpa using hj)
    rw [show k + 1 + j = k + (j + 1) by omega]
    simpa using this

/-- `CRC` on a fully readable buffer answers the pure function `crc32` (R105). -/
theorem execCrc_readable {s : State} {t : Table} {data : List Byte} (ht : s.table = some t)
    (hl : s.buffer.len = data.length) (hd : ∀ k, k < data.length → memRead s.buffer k = data[k]?) (seed : Word) :
    exec (.crc seed) s = .next (answer ⟨.ok, crc32 t data seed⟩ s) := by
  rw [execCrc_built ht, hl, absorb_fold t s.buffer data 0 _ (by simpa using hd)]
  rfl

/-- The loop of `CRC` stops exactly when an index it visits is unreadable. -/
theorem absorb_eq_none (t : Table) (buf : Buffer) (n k : Nat) (acc : Word) :
    absorb t buf n k acc = none ↔ ∃ j, k ≤ j ∧ j < k + n ∧ memRead buf j = none := by
  have key := absorb_isSome t buf n k acc
  constructor
  · intro h
    by_contra hc
    push Not at hc
    have := key.mpr fun j h1 h2 => Option.isSome_iff_ne_none.mpr (hc j h1 h2)
    simp [h] at this
  · rintro ⟨j, h1, h2, h3⟩
    by_contra hc
    have := key.mp (Option.isSome_iff_ne_none.mpr hc) j h1 h2
    simp [h3] at this

/-- Everything `CRC` can do: the table-valid check, then the buffer, then a result (R105, R136). -/
theorem execCrc_cases (seed : Word) (s : State) :
    (s.tv = false ∧ exec (.crc seed) s = .next (answer ⟨.faulted .tableNotBuilt, 0#32⟩ s)) ∨
    (s.tv = true ∧ (∃ k < s.buffer.len, memRead s.buffer k = none) ∧
      exec (.crc seed) s = .next (answer ⟨.faulted .bufferFault, 0#32⟩ s)) ∨
    (s.tv = true ∧ ¬ (∃ k < s.buffer.len, memRead s.buffer k = none) ∧
      ∃ v, exec (.crc seed) s = .next (answer ⟨.ok, v⟩ s)) := by
  cases ht : s.table with
  | none => exact .inl ⟨by simp [State.tv, ht], execCrc_unbuilt ht seed⟩
  | some t =>
    have htv : s.tv = true := by simp [State.tv, ht]
    have hn := absorb_eq_none t s.buffer s.buffer.len 0 (seed ^^^ FMASK)
    rw [execCrc_built ht]
    cases ha : absorb t s.buffer s.buffer.len 0 (seed ^^^ FMASK) with
    | none =>
      obtain ⟨j, _, h1, h2⟩ := hn.mp ha
      exact .inr (.inl ⟨htv, ⟨j, by omega, h2⟩, rfl⟩)
    | some acc =>
      refine .inr (.inr ⟨htv, ?_, _, rfl⟩)
      rintro ⟨j, h1, h2⟩
      have := hn.mpr ⟨j, by omega, by omega, h2⟩
      simp [ha] at this

/-- Everything `RDTAB` can do (R115). -/
theorem execRdtab_cases (n : Byte) (s : State) :
    (s.tv = false ∧ exec (.rdtab n) s = .next (answer ⟨.faulted .tableNotBuilt, 0#32⟩ s)) ∨
    (s.tv = true ∧ ∃ v, exec (.rdtab n) s = .next (answer ⟨.ok, v⟩ s)) := by
  cases ht : s.table with
  | none => exact .inl ⟨by simp [State.tv, ht], execRdtab_unbuilt ht n⟩
  | some t => exact .inr ⟨by simp [State.tv, ht], _, execRdtab_built ht n⟩

end Sys2Proof.Machine
end

