-- ==== Sys2Proof/Laws/Memory.lean ====
section
/-! SUPPORT. The `DATA` space: a binding is read back index by index, and is in canonical form. -/

namespace Sys2Proof.Machine

@[simp] theorem ofBytes_len (bytes : List (Option Byte)) : (Buffer.ofBytes bytes).len = bytes.length := rfl

/-- No index below the first one is listed. -/
theorem read_ofBytes_below (bytes : List (Option Byte)) :
    ∀ {k j : Nat}, j < k → Memory.read (Memory.ofBytes k bytes) j = none := by
  induction bytes with
  | nil => intros; rfl
  | cons b bs ih =>
    intro k j h
    cases b with
    | none => exact ih (by omega)
    | some v =>
      have hne : ¬ k = j := by omega
      simp only [Memory.ofBytes, Memory.read, hne, if_false]
      exact ih (by omega)

/-- Reading a binding's memory gives what the host listed at that index. -/
theorem read_ofBytes (bytes : List (Option Byte)) :
    ∀ k j : Nat, Memory.read (Memory.ofBytes k bytes) (k + j) = bytes[j]?.join := by
  induction bytes with
  | nil => intros; rfl
  | cons b bs ih =>
    intro k j
    cases j with
    | zero =>
      cases b with
      | none => simpa [Memory.ofBytes] using read_ofBytes_below bs (Nat.lt_succ_self k)
      | some v => simp [Memory.ofBytes, Memory.read]
    | succ j =>
      have h : k + (j + 1) = k + 1 + j := by omega
      cases b with
      | none => simpa [Memory.ofBytes, h] using ih (k + 1) j
      | some v =>
        have hne : ¬ k = k + 1 + j := by omega
        simpa [Memory.ofBytes, Memory.read, h, hne] using ih (k + 1) j

/-- `MemRead` on a binding gives the byte the host listed, and nothing where it listed none or beyond `LEN`. -/
theorem memRead_ofBytes (bytes : List (Option Byte)) (k : Nat) :
    memRead (Buffer.ofBytes bytes) k = bytes[k]?.join := by
  unfold memRead
  split
  · simpa [Buffer.ofBytes] using read_ofBytes bytes 0 k
  · rename_i h
    simp only [ofBytes_len] at h
    simp [List.getElem?_eq_none (Nat.le_of_not_lt h)]

/-- Canonical form from a bound on implies it from any lower one. -/
theorem wfFrom_mono {m : Memory} {k j : Nat} (h : Memory.wfFrom k m = true) (hj : j ≤ k) :
    Memory.wfFrom j m = true := by
  cases m with
  | nil => rfl
  | cons c m =>
    simp only [Memory.wfFrom, Bool.and_eq_true, decide_eq_true_eq] at h ⊢
    exact ⟨Nat.le_trans hj h.1, h.2⟩

theorem wfFrom_ofBytes (bytes : List (Option Byte)) :
    ∀ k : Nat, Memory.wfFrom k (Memory.ofBytes k bytes) = true := by
  induction bytes with
  | nil => intro k; rfl
  | cons b bs ih =>
    intro k
    cases b with
    | none => exact wfFrom_mono (ih (k + 1)) (Nat.le_succ k)
    | some v => simpa [Memory.ofBytes, Memory.wfFrom] using ih (k + 1)

theorem below_ofBytes (bytes : List (Option Byte)) :
    ∀ k len : Nat, k + bytes.length ≤ len → Memory.below len (Memory.ofBytes k bytes) = true := by
  induction bytes with
  | nil => intros; rfl
  | cons b bs ih =>
    intro k len h
    simp only [List.length_cons] at h
    cases b with
    | none => exact ih (k + 1) len (by omega)
    | some v =>
      simp only [Memory.ofBytes, Memory.below, Bool.and_eq_true, decide_eq_true_eq]
      exact ⟨by omega, ih (k + 1) len (by omega)⟩

/-- The one operation that makes a buffer makes a canonical one. -/
theorem ofBytes_wf (bytes : List (Option Byte)) : (Buffer.ofBytes bytes).wf = true := by
  simp [Buffer.wf, Memory.wf, Buffer.ofBytes, wfFrom_ofBytes bytes 0, below_ofBytes bytes 0 bytes.length]

theorem empty_wf : Buffer.empty.wf = true := rfl

/-- A listed index is at least the bound its memory is canonical from. -/
theorem read_none_of_lt {m : Memory} {low k : Nat} (h : Memory.wfFrom low m = true) (hk : k < low) :
    Memory.read m k = none := by
  induction m generalizing low with
  | nil => rfl
  | cons c m ih =>
    obtain ⟨a, b⟩ := c
    simp only [Memory.wfFrom, Bool.and_eq_true, decide_eq_true_eq] at h
    have hne : ¬ a = k := by omega
    simp only [Memory.read, hne, if_false]
    exact ih h.2 (by omega)

/-- Canonical memories that read alike are the same data. -/
theorem wfFrom_ext {m m' : Memory} {low : Nat} (h : Memory.wfFrom low m = true)
    (h' : Memory.wfFrom low m' = true) (hr : ∀ k, Memory.read m k = Memory.read m' k) : m = m' := by
  induction m generalizing m' low with
  | nil =>
    cases m' with
    | nil => rfl
    | cons c m' => simpa [Memory.read] using hr c.1
  | cons c m ih =>
    obtain ⟨a, b⟩ := c
    cases m' with
    | nil => simpa [Memory.read] using hr a
    | cons c' m' =>
      obtain ⟨a', b'⟩ := c'
      simp only [Memory.wfFrom, Bool.and_eq_true, decide_eq_true_eq] at h h'
      have haa : a = a' := by
        rcases Nat.lt_trichotomy a a' with hlt | heq | hgt
        · have := hr a
          have hne : ¬ a' = a := by omega
          simp [Memory.read, hne, read_none_of_lt h'.2 (show a < a' + 1 by omega)] at this
        · exact heq
        · have := hr a'
          have hne : ¬ a = a' := by omega
          simp [Memory.read, hne, read_none_of_lt h.2 (show a' < a + 1 by omega)] at this
      subst haa
      have hb : b = b' := by simpa [Memory.read] using hr a
      subst hb
      have hm : m = m' := by
        refine ih h.2 h'.2 fun k => ?_
        by_cases hk : a = k
        · subst hk
          rw [read_none_of_lt h.2 (Nat.lt_succ_self a), read_none_of_lt h'.2 (Nat.lt_succ_self a)]
        · simpa [Memory.read, hk] using hr k
      rw [hm]

end Sys2Proof.Machine
end

