-- ==== Sys2Proof/Laws/PerInstr.lean ====
section
/-! SUPPORT. Facts about each command as syntax, one lemma per constructor. -/

namespace Sys2Proof.Laws.TableRow

/-- The encoding of the command is selected by its own row of the opcode map, and by no other (R65). -/
def Statement (i : Instr) : Prop :=
  (opcodeMap.filter fun r => r.selects (encode i)).map (·.mnemonic) = [i.mnemonic]

theorem rev8 (x : Byte) : Statement (.rev8 x) := by
  simp [Statement, opcodeMap, encode, Instr.opcode, Instr.argument, Instr.mnemonic, selects_commandWord, opField, argField]

theorem rev16 (x : Half) : Statement (.rev16 x) := by
  simp [Statement, opcodeMap, encode, Instr.opcode, Instr.argument, Instr.mnemonic, selects_commandWord, opField, argField]

theorem rev32 (x : Word) : Statement (.rev32 x) := by
  simp [Statement, opcodeMap, encode, Instr.opcode, Instr.argument, Instr.mnemonic, selects_commandWord, opField, argField]

theorem build : Statement .build := by unfold Statement; decide

theorem crc (seed : Word) : Statement (.crc seed) := by
  simp [Statement, opcodeMap, encode, Instr.opcode, Instr.argument, Instr.mnemonic, selects_commandWord, opField, argField]

theorem rdtab (i : Byte) : Statement (.rdtab i) := by
  simp [Statement, opcodeMap, encode, Instr.opcode, Instr.argument, Instr.mnemonic, selects_commandWord, opField, argField,
    setWidth_and_above]

theorem rdpoly : Statement .rdpoly := by unfold Statement; decide

theorem rdrpoly : Statement .rdrpoly := by unfold Statement; decide

theorem rdstat : Statement .rdstat := by unfold Statement; decide

end Sys2Proof.Laws.TableRow
end

