-- ==== Sys2Proof/Laws/Reflector.lean ====
section
/-! SUPPORT. The Bit Reflector, bit by bit (`40_bit_reflector.md` R80). -/

namespace Sys2Proof.Machine

/-- Bit `j` of `reverseN(x, n)` is bit `n-1-j` of `x` (R80). -/
theorem getLsbD_reverseN {w : Nat} (x : BitVec w) :
    ∀ n j : Nat, (reverseN n x).getLsbD j = (decide (j < n) && x.getLsbD (n - 1 - j)) := by
  intro n
  induction n with
  | zero => intro j; simp [reverseN]
  | succ n ih =>
    intro j
    cases j with
    | zero => simp [reverseN]
    | succ j =>
      have h : n - (j + 1) = n - 1 - j := by omega
      simp [reverseN, ih, h]

theorem getLsbD_reverse8 (x : Byte) (j : Nat) :
    (reverse8 x).getLsbD j = (decide (j < 8) && x.getLsbD (7 - j)) := getLsbD_reverseN x 8 j

/-- The cascade, bit by bit (R81). -/
theorem getLsbD_reverse16 (x : Half) (j : Nat) :
    (reverse16 x).getLsbD j = (decide (j < 16) && x.getLsbD (15 - j)) := by
  unfold reverse16
  rw [BitVec.getLsbD_append]
  by_cases h : j < 8
  · have h1 : j < 16 := by omega
    have h2 : 8 + (7 - j) = 15 - j := by omega
    have h3 : 7 - j < 8 := by omega
    simp only [h, if_true, getLsbD_reverse8, BitVec.getLsbD_extractLsb']
    simp [h1, h2, h3]
  · by_cases h1 : j < 16
    · have h2 : j - 8 < 8 := by omega
      have h3 : 7 - (j - 8) = 15 - j := by omega
      have h4 : 15 - j < 8 := by omega
      rw [if_neg h, getLsbD_reverse8]
      simp [h1, h2, h3, h4]
    · have h2 : ¬ j - 8 < 8 := by omega
      simp [h, getLsbD_reverse8, h1, h2]

theorem getLsbD_reverse32 (x : Word) (j : Nat) :
    (reverse32 x).getLsbD j = (decide (j < 32) && x.getLsbD (31 - j)) := by
  unfold reverse32
  rw [BitVec.getLsbD_append]
  by_cases h : j < 16
  · have h1 : j < 32 := by omega
    have h2 : 16 + (15 - j) = 31 - j := by omega
    have h3 : 15 - j < 16 := by omega
    simp only [h, if_true, getLsbD_reverse16, BitVec.getLsbD_extractLsb']
    simp [h1, h2, h3]
  · by_cases h1 : j < 32
    · have h2 : j - 16 < 16 := by omega
      have h3 : 15 - (j - 16) = 31 - j := by omega
      have h4 : 31 - j < 16 := by omega
      rw [if_neg h, getLsbD_reverse16]
      simp [h1, h2, h3, h4]
    · have h2 : ¬ j - 16 < 16 := by omega
      simp [h, getLsbD_reverse16, h1, h2]

/-- The reflected polynomial of this hardware (R87). -/
theorem rpoly_eq : RPOLY = 0xEDB88320#32 := by decide

end Sys2Proof.Machine
end

