-- ==== Sys2Proof/Laws/Shift.lean ====
section
/-! SUPPORT. The bit-at-a-time form is linear over XOR (`41_table_builder.md` R92, R95 (d)). -/

namespace Sys2Proof.Machine

theorem shiftStep_xor (rp a b : Word) : shiftStep rp (a ^^^ b) = shiftStep rp a ^^^ shiftStep rp b := by
  have both : a >>> 1 ^^^ b >>> 1 = a >>> 1 ^^^ rp ^^^ (b >>> 1 ^^^ rp) := by
    rw [show a >>> 1 ^^^ rp ^^^ (b >>> 1 ^^^ rp) = (rp ^^^ rp) ^^^ (a >>> 1 ^^^ b >>> 1) by ac_rfl]
    simp
  unfold shiftStep
  simp only [BitVec.getLsbD_xor, BitVec.ushiftRight_xor_distrib]
  cases a.getLsbD 0 <;> cases b.getLsbD 0 <;> simp only [Bool.xor_false, Bool.false_xor, Bool.xor_self,
    Bool.false_eq_true, if_true, if_false]
  · ac_rfl
  · ac_rfl
  · exact both

theorem shiftSteps_xor (rp : Word) (n : Nat) : ∀ a b : Word,
    shiftSteps rp n (a ^^^ b) = shiftSteps rp n a ^^^ shiftSteps rp n b := by
  induction n with
  | zero => intros; rfl
  | succ n ih => intro a b; rw [shiftSteps, shiftStep_xor, ih]; rfl

theorem shiftSteps_zero (rp : Word) (n : Nat) : shiftSteps rp n 0#32 = 0#32 := by
  induction n with
  | zero => rfl
  | succ n ih => simpa [shiftSteps, shiftStep] using ih

end Sys2Proof.Machine
end

