-- ==== Sys2Proof/Laws/Step.lean ====
section
/-! SUPPORT. The step, in the terms of Safety. -/

namespace Sys2Proof.Machine

@[simp] theorem advanceHost_self (s : State) : advanceHost s.hostMoves s = s := rfl

section afterWait
variable (s : State)
@[simp] theorem afterWait_table : s.afterWait.table = s.table := rfl
@[simp] theorem afterWait_buffer : s.afterWait.buffer = s.buffer := rfl
@[simp] theorem afterWait_command : s.afterWait.command = s.command := rfl
@[simp] theorem afterWait_response : s.afterWait.response = s.response := rfl
@[simp] theorem afterWait_config : s.afterWait.config = s.config := rfl
@[simp] theorem afterWait_tv : s.afterWait.tv = s.tv := rfl
end afterWait

section bind
variable (b : Buffer) (s : State)
@[simp] theorem bind_table : (s.bind b).table = s.table := rfl
@[simp] theorem bind_buffer : (s.bind b).buffer = b := rfl
@[simp] theorem bind_command : (s.bind b).command = s.command := rfl
@[simp] theorem bind_response : (s.bind b).response = s.response := rfl
@[simp] theorem bind_hostMoves : (s.bind b).hostMoves = s.hostMoves := rfl
@[simp] theorem bind_config : (s.bind b).config = s.config := rfl
end bind

/-- With a command in progress and a host that waits, the step runs the command. -/
theorem step_waits {s : State} {cw : CmdWord} (hc : s.command = some cw) (hw : s.waits = true) :
    step s = runCommand cw s.afterWait := by
  unfold step busyStep State.afterWait
  rw [hc]
  cases hm : s.hostMoves with
  | nil =>
    have : advanceHost [] s = s := by rw [← hm]; rfl
    simp [this]
  | cons m rest =>
    cases m with
    | await => simp
    | reset => simp [State.waits, hm] at hw
    | issue c b => simp [State.waits, hm] at hw

/-- Everything a step can do. -/
theorem step_next {s t : State} (h : step s = .next t) :
    (s.command = none ∧ idleStep s = .next t) ∨ (∃ cw, s.command = some cw ∧ busyStep cw s = .next t) := by
  unfold step at h
  split at h
  · next cw hc => exact .inr ⟨cw, hc, h⟩
  · next hc => exact .inl ⟨hc, h⟩

/-- `CRC` over a bound buffer of readable bytes answers the pure function `crc32` (R105). -/
theorem execCrc_bound {s : State} {t : Table} (ht : s.table = some t) (data : List Byte) (seed : Word) :
    exec (.crc seed) (s.bind (readableBuffer data)) =
      .next (answer ⟨.ok, crc32 t data seed⟩ (s.bind (readableBuffer data))) := by
  refine execCrc_readable (s := s.bind (readableBuffer data)) (data := data) ht (by simp [readableBuffer])
    (fun k hk => ?_) seed
  simp only [bind_buffer, readableBuffer, memRead_ofBytes, List.getElem?_map]
  cases data[k]? <;> rfl

end Sys2Proof.Machine
end

