-- ==== Sys2Proof/Tests/Slice0.lean ====
section
/-! SUPPORT. Tests. Expected values are those the spec prints: the section or rule stands at each group. A test on
fixed values checks this model's text; it is no claim. -/

namespace Sys2Proof.Tests

open Sys2Proof.Machine

/-! ### Small states -/

/-- Just after reset, with the host's moves given. -/
def idle (moves : List HostMove) : State := { State.reset with hostMoves := moves }

/-- A command in progress just after reset. -/
def busy (cw : CmdWord) (moves : List HostMove) : State := { State.reset with command := some cw, hostMoves := moves }

/-- A `BUILD` has completed. -/
def built : State := State.reset.setTable (buildTable RPOLY)

/-- A `BUILD` has completed, and a buffer of these bytes is bound. -/
def builtWith (bytes : List (Option Byte)) : State := built.bind (Buffer.ofBytes bytes)

/-- The response word a step or a meaning gives, if it gives one. -/
def rw? : Result → Option CmdWord
  | .next s => s.response.map Response.word
  | .fault _ => none
  | .refused _ => none

/-! ### WellFormed: each check refuses an ill-formed term (`30_encoding.md` R62, R69) -/

theorem test_argument_refuses_wide_number :
    WellFormed.argument (2 ^ 32) = false ∧ WellFormed.argument (2 ^ 32 - 1) = true := by decide
theorem test_tableIndex_refuses_256 : WellFormed.tableIndex 256 = false ∧ WellFormed.tableIndex 255 = true := by decide
theorem test_byteValue_refuses_256 : WellFormed.byteValue 256 = false ∧ WellFormed.byteValue 255 = true := by decide
theorem test_asciiChar_refuses_non_ascii :
    WellFormed.asciiChar 'é' = false ∧ WellFormed.asciiChar 'a' = true := by decide
theorem test_binding_refuses_beyond_maxLen :
    WellFormed.binding ⟨some 1⟩ [none, none] = false ∧ WellFormed.binding ⟨some 1⟩ [none] = true := by decide
theorem test_assembler_refuses_ill_formed_lines :
    (AsmLine.rdtab 256).assemble = none ∧ (AsmLine.rev32 (2 ^ 32)).assemble = none ∧
      (AsmLine.crc (.listed [256]) 0).assemble = none ∧ (AsmLine.crcUnseeded (.quoted ['é'])).assemble = none := by
  decide
theorem test_memory_wf_refuses_unsorted :
    Memory.wf [(1, 0#8), (0, 0#8)] = false ∧ Buffer.wf ⟨1, [(1, 0#8)]⟩ = false := by decide

/-! ### Decoding: words written out from the patterns of R65 and the rows of `95_test_vectors.md` -/

theorem test_decode_rev8 :
    decode 0b0000000111111111111111111111111100000001#40 = .ok (.rev8 0x01#8) := by decide
theorem test_decode_rev16 :
    decode 0b0000001010101011110011010000000000000001#40 = .ok (.rev16 0x0001#16) := by decide
theorem test_decode_rev32 :
    decode 0b0000001100010010001101000101011001111000#40 = .ok (.rev32 0x12345678#32) := by decide
theorem test_decode_build : decode 0b0000010000000000000000000000000000000000#40 = .ok .build := by decide
theorem test_decode_crc :
    decode 0b0000010111111111111111111111111111111111#40 = .ok (.crc 0xFFFFFFFF#32) := by decide
theorem test_decode_rdtab : decode 0b0000011000000000000000000000000010000000#40 = .ok (.rdtab 128#8) := by decide
theorem test_decode_rdpoly : decode 0b0000011100000000000000000000000000000000#40 = .ok .rdpoly := by decide
theorem test_decode_rdrpoly : decode 0b0000100000000000000000000000000000000000#40 = .ok .rdrpoly := by decide
theorem test_decode_rdstat : decode 0b0000100100000000000000000000000000000000#40 = .ok .rdstat := by decide

/-- The illegal words of section 2.7. -/
theorem test_decode_reserved : [0x0000000000#40, 0x00FFFFFFFF#40, 0x0400000001#40, 0x0480000000#40,
    0x0600000100#40, 0x0680000080#40, 0x0700000001#40, 0x08EDB88320#40, 0x0900000002#40, 0x0A00000000#40,
    0x1000000000#40, 0x8000000000#40, 0xFFFFFFFFFF#40].all
    (fun cw => match decode cw with | .ok _ => false | .error _ => true) = true := by decide

theorem test_decodeTableWord : decodeTableWord 40 0x0600000080 = some (.rdtab 128#8) ∧
    decodeTableWord 40 0x0400000001 = none := by decide

/-- Written lines (R69, R70): `REV8 0xFFFFFF01`, `RDTAB 128`, `CRC "abcd"`, `REFLECT 0x04C11DB7`. -/
theorem test_assemble :
    (AsmLine.rev8 0xFFFFFF01).assemble = some (.issue 0x01FFFFFF01#40 []) ∧
    (AsmLine.rdtab 128).assemble = some (.issue 0x0600000080#40 []) ∧
    (AsmLine.crcUnseeded (.quoted ['a', 'b', 'c', 'd'])).assemble =
      some (.issue 0x0500000000#40 [some 0x61#8, some 0x62#8, some 0x63#8, some 0x64#8]) ∧
    (AsmLine.reflect 0x04C11DB7).assemble = some (.issue 0x0304C11DB7#40 []) := by decide

/-! ### The commands, `CW` and `RW` of `95_test_vectors.md` sections 2.1, 2.2, 2.4, 2.8, 2.9 -/

theorem test_rev8 : rw? (exec (.rev8 0x12#8) State.reset) = some 0x0000000048#40 ∧
    rw? (runCommand 0x01FFFFFF01#40 State.reset) = some 0x0000000080#40 := by decide
theorem test_rev16 : rw? (exec (.rev16 0x1234#16) State.reset) = some 0x0000002C48#40 ∧
    rw? (runCommand 0x02ABCD0001#40 State.reset) = some 0x0000008000#40 := by decide
theorem test_rev32 : rw? (exec (.rev32 0x12345678#32) State.reset) = some 0x001E6A2C48#40 ∧
    rw? (runCommand 0x0304C11DB7#40 State.reset) = some 0x00EDB88320#40 := by decide

theorem test_build : rw? (exec .build State.reset) = some 0x0000000000#40 := by rfl
theorem test_build_entries : (buildTable RPOLY).entry 0x01#8 = 0x77073096#32 ∧
    (buildTable RPOLY).entry 0x7F#8 = 0xC0BA6CAD#32 ∧ (buildTable RPOLY).entry 0xFE#8 = 0x5A05DF1B#32 := by
  simp only [entry_buildTable]; decide
/-- Another polynomial (section 2.2). -/
theorem test_build_entry_other_polynomial : buildEntry 0x82F63B78#32 0x01#8 = 0xF26B8303#32 := by decide

/-- `CRC "a", 0` and `CRC [0x61], 0x12345678` once built. -/
theorem test_crc : rw? (exec (.crc 0#32) (builtWith [some 0x61#8])) = some 0x00E8B7BE43#40 ∧
    rw? (exec (.crc 0x12345678#32) (builtWith [some 0x61#8])) = some 0x00B67B731B#40 := by decide +kernel
/-- Unreadable at the last index: `BufferFault`; `TV = 0` comes first. -/
theorem test_crc_faults : rw? (exec (.crc 0#32) (builtWith [some 0x61#8, none])) = some 0x0300000000#40 ∧
    rw? (exec (.crc 0#32) (State.reset.bind ⟨4, []⟩)) = some 0x0200000000#40 := by decide +kernel

theorem test_rdtab : rw? (exec (.rdtab 255#8) built) = some 0x002D02EF8D#40 ∧
    rw? (exec (.rdtab 128#8) State.reset) = some 0x0200000000#40 := by decide +kernel
theorem test_rdpoly : rw? (exec .rdpoly State.reset) = some 0x0004C11DB7#40 := by decide
theorem test_rdrpoly : rw? (exec .rdrpoly State.reset) = some 0x00EDB88320#40 := by decide
theorem test_rdstat : rw? (exec .rdstat State.reset) = some 0x0000000000#40 ∧
    rw? (exec .rdstat built) = some 0x0000000001#40 := ⟨by decide, by rfl⟩

/-- An illegal word (P4 step 3), run by the step; `TableNotBuilt` does not come first (section 2.8). -/
theorem test_step_illegal : rw? (step (busy 0x0400000001#40 [])) = some 0x0100000000#40 ∧
    rw? (step (busy 0x0600000100#40 [])) = some 0x0100000000#40 := by decide
/-- A word placed for the next step runs as the first command after reset. -/
theorem test_step_placed_word :
    rw? (step (State.reset.withFetchWord 40 0x0800000000)) = some 0x00EDB88320#40 := by decide

/-! ### Witnesses: concrete values that meet the hypotheses of each statement that has some -/

theorem witness_reset_move : (busy 0x0400000000#40 [.reset]).hostMoves = .reset :: [] := rfl
theorem witness_command_answered : (busy 0x0700000000#40 [.await]).command = some 0x0700000000#40 ∧
    rw? (step (busy 0x0700000000#40 [.await])) = some 0x0004C11DB7#40 := ⟨rfl, by decide⟩
theorem witness_command_abandoned : (busy 0x0700000000#40 [.reset]).command = some 0x0700000000#40 ∧
    step (busy 0x0700000000#40 [.reset]) = .next State.reset := ⟨rfl, rfl⟩
theorem witness_step_without_command : (idle [.await]).command = none ∧
    step (idle [.await]) = .next (idle []) := ⟨rfl, rfl⟩
theorem witness_overlap : (busy 0x0700000000#40 [.issue 0#40 []]).command = some 0x0700000000#40 ∧
    (busy 0x0700000000#40 [.issue 0#40 []]).hostMoves = .issue 0#40 [] :: [] := ⟨rfl, rfl⟩
/-- The longest buffer a bound of 2 allows, its last index unreadable. -/
theorem witness_presented : ({ idle [.issue 0x0500000000#40 [some 0x61#8, none]] with config := ⟨some 2⟩ }).command = none ∧
    Config.allowsLen ⟨some 2⟩ [some 0x61#8, (none : Option Byte)].length = true ∧
    memRead (Buffer.ofBytes [some 0x61#8, none]) 0 = some 0x61#8 ∧
    memRead (Buffer.ofBytes [some 0x61#8, none]) 1 = none ∧
    memRead (Buffer.ofBytes [some 0x61#8, none]) 2 = none := by decide
theorem witness_too_long : ({ idle [.issue 0#40 [none, none]] with config := ⟨some 1⟩ }).config.maxLen = some 1 ∧
    1 < [(none : Option Byte), none].length ∧
    step { idle [.issue 0#40 [none, none]] with config := ⟨some 1⟩ } = .refused .bindingTooLong :=
  ⟨rfl, by decide, rfl⟩
/-- Both forms of a host that waits, with a legal command in progress. -/
theorem witness_step_runs : (busy 0x0600000080#40 [.await]).waits = true ∧ (busy 0x0600000080#40 []).waits = true ∧
    decode 0x0600000080#40 = .ok (.rdtab 128#8) := by decide
theorem witness_placed_word : decodeTableWord 40 0x05FFFFFFFF = some (.crc 0xFFFFFFFF#32) := by decide
theorem witness_refused_step : step (busy 0#40 [.issue 0#40 []]) = .refused .commandInProgress := rfl
theorem witness_idle : (idle []).command = none ∧ (idle []).waits = true ∧ (idle [.await]).waits = true := by decide
theorem witness_decoded_word : decode 0x01FFFFFF01#40 = .ok (.rev8 0x01#8) ∧
    decode 0x02ABCD0001#40 = .ok (.rev16 0x0001#16) ∧ decode 0x06000000FF#40 = .ok (.rdtab 0xFF#8) := by decide
theorem witness_rejected_word : decode 0x0A00000000#40 = .error (.opcodeAboveMap 0x0A#8) := by decide
/-- One reserved word of each group of R67, at the edges of the groups, in progress with a waiting host. -/
theorem witness_reserved : (busy 0x00FFFFFFFF#40 [.await]).waits = true ∧
    decode 0x00FFFFFFFF#40 = .error .opcodeZero ∧ decode 0x0A00000000#40 = .error (.opcodeAboveMap 0x0A#8) ∧
    decode 0x0900000001#40 = .error (.argumentNotZero 0x09#8 1#32) ∧
    decode 0x0600000100#40 = .error (.indexNotByte 0x100#32) := by decide
theorem witness_assembled : (AsmLine.rdtab 255).wellFormed = true ∧ (AsmLine.rev8 (2 ^ 32 - 1)).wellFormed = true ∧
    (AsmLine.crc (.listed [255]) (2 ^ 32 - 1)).wellFormed = true := by decide
/-- The bounds of the reflector's clauses: the highest bit each carries, the first it clears. -/
theorem witness_reflector_bits : (zextByte (reverse8 0x80#8)).getLsbD (7 - 7) = true ∧
    (zextByte (reverse8 0xFF#8)).getLsbD 8 = false ∧ (zextHalf (reverse16 0x8000#16)).getLsbD (15 - 15) = true ∧
    (zextHalf (reverse16 0xFFFF#16)).getLsbD 16 = false ∧ (reverse32 0x80000000#32).getLsbD (31 - 31) = true := by
  decide
/-- A palindrome, for the fixed points. -/
theorem witness_palindrome : ∀ k, k < 8 → (0xA5#8).getLsbD (8 - 1 - k) = (0xA5#8).getLsbD k := by decide
theorem witness_nonzero_argument : (0x80000000#32 : Word) ≠ 0#32 ∧ (0x00000001#32 : Word) ≠ 0#32 := by decide
theorem witness_built : built.tv = true ∧ built.TableSound := by
  refine ⟨rfl, fun t h i => ?_⟩
  have ht : t = buildTable RPOLY := (Option.some.inj h).symm
  rw [ht, entry_buildTable]
theorem witness_table : built.table = some (buildTable RPOLY) ∧ State.reset.tv = false := ⟨rfl, rfl⟩
theorem witness_entries : ∀ i : Byte, (buildTable RPOLY).entry i = buildEntry RPOLY i := entry_buildTable RPOLY
/-- The edges of the single-bit entries and of the width of `V`. -/
theorem witness_bounds : 0x80#8 >>> 7 = 0x01#8 ∧ (builderFinal 8 RPOLY 0xFF#8).2 = 0x2D02EF8D#32 ∧
    (builderFinal 64 RPOLY 0xFF#8).2 = 0x2D02EF8D#32 := by decide
theorem witness_top_bytes : (buildEntry RPOLY 0x01#8).extractLsb' 24 8 = (buildEntry RPOLY 0x01#8).extractLsb' 24 8 := rfl
theorem witness_readable : (builtWith [some 0x61#8]).buffer.len = [0x61#8].length ∧
    ∀ k, k < [0x61#8].length → memRead (builtWith [some 0x61#8]).buffer k = [0x61#8][k]? := by
  refine ⟨rfl, fun k hk => ?_⟩
  have : k = 0 := by simpa using hk
  subst this; rfl
theorem witness_empty_buffer : (builtWith []).tv = true ∧ (builtWith []).buffer.len = 0 := ⟨rfl, rfl⟩
/-- Unreadable at the last index below `LEN`. -/
theorem witness_unreadable : (builtWith [some 0x61#8, none]).tv = true ∧ 1 < (builtWith [some 0x61#8, none]).buffer.len ∧
    memRead (builtWith [some 0x61#8, none]).buffer 1 = none := ⟨rfl, by decide, rfl⟩
theorem witness_tableNotBuilt : exec (.rdtab 0#8) State.reset =
    .next { State.reset with command := none, response := some ⟨.faulted .tableNotBuilt, 0#32⟩ } := rfl
theorem witness_bufferFault : exec (.crc 0#32) (builtWith [none]) =
    .next { builtWith [none] with command := none, response := some ⟨.faulted .bufferFault, 0#32⟩ } := rfl
theorem witness_changed_byte : (0x31#8 : Byte) ≠ 0x30#8 := by decide
theorem witness_index_fields : (0x000000FF#32 : Word).extractLsb' 8 24 = 0#24 ∧
    (0x00000100#32 : Word).extractLsb' 8 24 ≠ 0#24 := by decide
theorem witness_inspection : (Instr.rdstat ≠ .build) ∧ ∀ seed, Instr.rdstat ≠ .crc seed :=
  ⟨by decide, fun _ => by simp⟩
/-- One state for each outcome the priority rule tells apart. -/
theorem witness_priority : (busy 0x0600000100#40 []).waits = true ∧ decode 0x0600000100#40 = .error (.indexNotByte 0x100#32) ∧
    decode 0x0500000000#40 = .ok (.crc 0#32) ∧ State.reset.tv = false ∧ (builtWith [none]).tv = true ∧
    0 < (builtWith [none]).buffer.len ∧ memRead (builtWith [none]).buffer 0 = none ∧
    decode 0x0100000000#40 = .ok (.rev8 0#8) := by
  refine ⟨rfl, by decide, by decide, rfl, rfl, by decide, rfl, by decide⟩
/-- `CRC` with its table and its last byte readable. -/
theorem witness_preconditions : ({ builtWith [some 0x61#8] with command := some 0x0500000000#40 }).waits = true ∧
    decode 0x0500000000#40 = .ok (.crc 0#32) ∧ (builtWith [some 0x61#8]).tv = true ∧
    (builtWith [some 0x61#8]).buffer.readable := by
  refine ⟨rfl, by decide, rfl, fun k hk => ?_⟩
  have : k = 0 := by simpa [builtWith] using hk
  subst this; exact ⟨_, rfl⟩
theorem witness_faulting_step : step (busy 0x0500000000#40 []) =
    .next { busy 0x0500000000#40 [] with command := none, response := some ⟨.faulted .tableNotBuilt, 0#32⟩ } ∧
    Response.isFault ⟨.faulted .tableNotBuilt, 0#32⟩ = true := ⟨rfl, rfl⟩
theorem witness_table_change : step (busy 0x0400000000#40 []) =
    .next { busy 0x0400000000#40 [] with table := some (buildTable RPOLY), command := none,
                                         response := some ⟨.ok, 0#32⟩ } ∧
    (some (buildTable RPOLY) : Option Table) ≠ (busy 0x0400000000#40 []).table := ⟨rfl, nofun⟩
/-- Two states that agree on the table and the buffer and differ elsewhere. -/
theorem witness_same_table_and_buffer : (busy 0x0700000000#40 []).table = (busy 0x0700000000#40 [.await]).table ∧
    (busy 0x0700000000#40 []).buffer = (busy 0x0700000000#40 [.await]).buffer ∧
    busy 0x0700000000#40 [] ≠ busy 0x0700000000#40 [.await] := by decide
theorem witness_invariant : (builtWith [some 0x61#8, none]).Inv ∧ (builtWith [some 0x61#8, none]).tv = true := by
  refine ⟨⟨witness_built.2, ofBytes_wf _, rfl, fun h => by cases h⟩, rfl⟩

end Sys2Proof.Tests
end

/-! PROOFS. The statements of `30_encoding.md` R63, R65, R70 and R71. -/

namespace Sys2Proof.Machine

/-! ### The decoder, one equation per `OP` (R66) -/

section decode
variable (arg : Word)

theorem decode_op01 : decode (commandWord 0x01#8 arg) = .ok (.rev8 (argByte arg)) := by simp [decode]

theorem decode_op02 : decode (commandWord 0x02#8 arg) = .ok (.rev16 (argHalf arg)) := by simp [decode]

theorem decode_op03 : decode (commandWord 0x03#8 arg) = .ok (.rev32 arg) := by simp [decode]

theorem decode_op04 : decode (commandWord 0x04#8 arg) = decodeBare 0x04#8 arg .build := by simp [decode]

theorem decode_op05 : decode (commandWord 0x05#8 arg) = .ok (.crc arg) := by simp [decode]

theorem decode_op06 : decode (commandWord 0x06#8 arg) =
    if argAboveByte arg = 0#24 then .ok (.rdtab (argByte arg)) else .error (.indexNotByte arg) := by simp [decode]

theorem decode_op07 : decode (commandWord 0x07#8 arg) = decodeBare 0x07#8 arg .rdpoly := by simp [decode]

theorem decode_op08 : decode (commandWord 0x08#8 arg) = decodeBare 0x08#8 arg .rdrpoly := by simp [decode]

theorem decode_op09 : decode (commandWord 0x09#8 arg) = decodeBare 0x09#8 arg .rdstat := by simp [decode]

theorem decode_op00 : decode (commandWord 0x00#8 arg) = .error .opcodeZero := by simp [decode]

theorem decode_opAboveMap {op : Byte} (h : 0x0A#8 ≤ op) :
    decode (commandWord op arg) = .error (.opcodeAboveMap op) := by
  have hne : ∀ k : Byte, k < 0x0A#8 → op ≠ k := by bv_omega
  simp [decode, hne]

end decode

/-! ### The opcode map, one field at a time (R65) -/

/-- The rows of the opcode map that carry `op`. -/
def rowsOfOp (op : Byte) : List OpcodeRow := opcodeMap.filter fun r => opField r.bits == op

/-- Every row of the opcode map masks the whole of `OP`. -/
theorem opField_mask_of_mem : ∀ r ∈ opcodeMap, opField r.mask = 0xFF#8 := by decide

/-- A word selects, among the rows that carry its `OP`, those that accept its `ARG`. -/
theorem filter_selects_commandWord (op : Byte) (arg : Word) :
    opcodeMap.filter (·.selects (commandWord op arg)) =
      (rowsOfOp op).filter fun r => arg &&& argField r.mask == argField r.bits := by
  rw [rowsOfOp, List.filter_filter]
  refine List.filter_congr fun r hr => ?_
  rw [Bool.eq_iff_iff, selects_commandWord, opField_mask_of_mem r hr, and_ones8]
  simp [and_comm, eq_comm (a := op)]

/-- An `OP` outside 0x01 to 0x09 stands in no row. -/
theorem rowsOfOp_aboveMap : ∀ op : Byte, 0x0A#8 ≤ op → rowsOfOp op = [] := by decide

/-- `OP` from 0x01 to 0x09 names exactly one row: the rows stand in the order of their `OP`. -/
theorem rowsOfOp_eq : ∀ k : Fin 9, rowsOfOp (BitVec.ofNat 8 (k + 1)) = [opcodeMap[k]] := by decide

/-- The mnemonics of the rows that a word selects (R65). -/
def selectedMnemonics (cw : CmdWord) : List String := (opcodeMap.filter (·.selects cw)).map (·.mnemonic)

/-- The mnemonic of a decoded command; none for a reserved word. -/
def decodedMnemonics (d : Except Reserved Instr) : List String := d.toOption.toList.map Instr.mnemonic

@[simp] theorem decodedMnemonics_ok (i : Instr) : decodedMnemonics (.ok i) = [i.mnemonic] := rfl

@[simp] theorem decodedMnemonics_error (e : Reserved) : decodedMnemonics (.error e) = [] := rfl

/-- The only row that carries `op` selects a word exactly when it accepts the word's `ARG`. -/
theorem selectedMnemonics_commandWord {op : Byte} {row : OpcodeRow} (h : rowsOfOp op = [row]) (arg : Word) :
    selectedMnemonics (commandWord op arg) =
      if arg &&& argField row.mask = argField row.bits then [row.mnemonic] else [] := by
  rw [selectedMnemonics, filter_selects_commandWord, h]
  by_cases ha : arg &&& argField row.mask = argField row.bits <;> simp [ha]

/-- Where no row carries `op`, none selects a word with it. -/
theorem selectedMnemonics_of_rowsOfOp_nil {op : Byte} (h : rowsOfOp op = []) (arg : Word) :
    selectedMnemonics (commandWord op arg) = [] := by
  rw [selectedMnemonics, filter_selects_commandWord, h]; rfl

/-- A row that reads no bit of `ARG` accepts every word with its `OP`. -/
theorem selectedMnemonics_anyArg {op : Byte} {row : OpcodeRow} (h : rowsOfOp op = [row])
    (hm : argField row.mask = 0#32) (hb : argField row.bits = 0#32) (arg : Word) :
    selectedMnemonics (commandWord op arg) = [row.mnemonic] := by
  simp [selectedMnemonics_commandWord h, hm, hb]

/-- A row without an operand accepts `ARG = 0` only, as `decodeBare` does (R67 (c)). -/
theorem selectedMnemonics_bare {op : Byte} {row : OpcodeRow} {i : Instr} (h : rowsOfOp op = [row])
    (hm : argField row.mask = 0xFFFFFFFF#32) (hb : argField row.bits = 0#32) (hi : row.mnemonic = i.mnemonic)
    (arg : Word) :
    selectedMnemonics (commandWord op arg) = decodedMnemonics (decodeBare op arg i) := by
  rw [selectedMnemonics_commandWord h, hm, hb, and_ones32, decodeBare, hi]
  split <;> rfl

/-- The row of `RDTAB` accepts `ARG` exactly when its upper 24 bits are zero, as the decoder does (R67 (d)). -/
theorem selectedMnemonics_op06 (arg : Word) :
    selectedMnemonics (commandWord 0x06#8 arg) = decodedMnemonics (decode (commandWord 0x06#8 arg)) := by
  have hrow : rowsOfOp 0x06#8 = [opcodeMap[5]] := rowsOfOp_eq 5
  have hmask : argField opcodeMap[5].mask = 0xFFFFFF00#32 := rfl
  have hbits : argField opcodeMap[5].bits = 0#32 := rfl
  rw [decode_op06, selectedMnemonics_commandWord hrow, hmask, hbits]
  simp only [argAboveByte_eq_zero]
  split <;> rfl

/-- R65 in one equation: the rows that select a word are the row of its command, or none for a reserved word. -/
theorem selectedMnemonics_eq_decoded (cw : CmdWord) : selectedMnemonics cw = decodedMnemonics (decode cw) := by
  rw [← commandWord_fields cw]
  generalize opField cw = op, argField cw = arg
  rcases opcode_cases op with rfl | rfl | rfl | rfl | rfl | rfl | rfl | rfl | rfl | rfl | above
  · rw [decode_op01]; exact selectedMnemonics_anyArg (rowsOfOp_eq 0) rfl rfl arg
  · rw [decode_op02]; exact selectedMnemonics_anyArg (rowsOfOp_eq 1) rfl rfl arg
  · rw [decode_op03]; exact selectedMnemonics_anyArg (rowsOfOp_eq 2) rfl rfl arg
  · rw [decode_op04]; exact selectedMnemonics_bare (rowsOfOp_eq 3) rfl rfl rfl arg
  · rw [decode_op05]; exact selectedMnemonics_anyArg (rowsOfOp_eq 4) rfl rfl arg
  · exact selectedMnemonics_op06 arg
  · rw [decode_op07]; exact selectedMnemonics_bare (rowsOfOp_eq 6) rfl rfl rfl arg
  · rw [decode_op08]; exact selectedMnemonics_bare (rowsOfOp_eq 7) rfl rfl rfl arg
  · rw [decode_op09]; exact selectedMnemonics_bare (rowsOfOp_eq 8) rfl rfl rfl arg
  · rw [decode_op00]; exact selectedMnemonics_of_rowsOfOp_nil rfl arg
  · rw [decode_opAboveMap arg above]; exact selectedMnemonics_of_rowsOfOp_nil (rowsOfOp_aboveMap op above) arg

/-- Settles O13: both clauses read off `selectedMnemonics_eq_decoded`. -/
theorem decoderAgreesWithTheOpcodeMap : Obligations.DecoderAgreesWithTheOpcodeMap := by
  unfold Obligations.DecoderAgreesWithTheOpcodeMap
  constructor
  · intro cw i hd
    have key := selectedMnemonics_eq_decoded cw
    rwa [hd] at key
  · intro cw e hd
    have key := selectedMnemonics_eq_decoded cw
    rw [hd] at key
    exact List.map_eq_nil_iff.mp key

/-! ### The end of a command (R71) -/

/-- A command that runs is answered: it is over and has a response. -/
theorem runCommand_next_answers {cw : CmdWord} {s t : State} (h : runCommand cw s = .next t) :
    t.command = none ∧ ∃ r, t.response = some r := by
  rcases runCommand_cases cw s with ⟨i, -, hrun⟩ | ⟨e, -, hrun⟩ <;> rw [hrun] at h
  · obtain ⟨r, hexec⟩ := exec_shape i s
    obtain rfl := Host.Outcome.next.inj (hexec.symm.trans h)
    exact ⟨rfl, r, rfl⟩
  · obtain rfl := (raise_next _ _ _).mp h
    exact ⟨rfl, _, rfl⟩

/-- A step with a command in progress is the busy step. -/
theorem step_busy {s : State} {cw : CmdWord} (hc : s.command = some cw) : step s = busyStep cw s := by
  simp [step, hc]

/-- A step with no command in progress is the idle step. -/
theorem step_idle {s : State} (hc : s.command = none) : step s = idleStep s := by
  simp [step, hc]

/-- A command in progress ends with its response, or by reset without one. -/
theorem busyStep_next_ends {cw : CmdWord} {s t : State} (h : busyStep cw s = .next t) :
    t.command = none ∧ ((∃ r, t.response = some r) ∨
      (t.response = none ∧ ∃ rest, s.hostMoves = .reset :: rest)) := by
  rcases busyStep_next h with ⟨rest, hreset, rfl⟩ | ⟨rest, -, hrun⟩
  · exact ⟨rfl, .inr ⟨rfl, rest, hreset⟩⟩
  · obtain ⟨hover, hresponse⟩ := runCommand_next_answers hrun
    exact ⟨hover, .inl hresponse⟩

/-- An idle step gives no new response: it keeps the old one or drops it. -/
theorem idleStep_next_response {s t : State} (h : idleStep s = .next t) :
    t.response = none ∨ t.response = s.response := by
  rcases idleStep_next h with ⟨-, rfl⟩ | ⟨rest, -, rfl⟩ | ⟨rest, -, rfl⟩ | ⟨cw, bytes, rest, -, -, rfl⟩
  · exact .inr rfl
  · exact .inr rfl
  · exact .inl rfl
  · exact .inl rfl

/-- The host has no move that presents a second command (R155). -/
theorem busyStep_issue {s : State} (cw cw' : CmdWord) {bytes : List (Option Byte)} {rest : List HostMove}
    (hm : s.hostMoves = .issue cw' bytes :: rest) : busyStep cw s = .refused .commandInProgress := by
  simp [busyStep, hm]

/-- Settles O3, by what a busy and an idle step can do. -/
theorem commandEndsByResponseOrReset : Obligations.CommandEndsByResponseOrReset := by
  unfold Obligations.CommandEndsByResponseOrReset
  refine ⟨fun s t cw hc hstep => ?_, fun s t hc hstep => ?_, fun s cw cw' bytes rest hc hm => ?_⟩
  · exact busyStep_next_ends (step_busy hc ▸ hstep)
  · exact idleStep_next_response (step_idle hc ▸ hstep)
  · rw [step_busy hc, busyStep_issue cw cw' hm]

/-! ### Response words (R63) -/

/-- A response word has the layout of a command word: its status where `OP` stands, its value where `ARG` does. -/
theorem word_eq_commandWord (r : Response) : r.word = commandWord r.st.code r.val := rfl

/-- A word as a number (R61). -/
theorem toNat_commandWord (op : Byte) (arg : Word) :
    (commandWord op arg).toNat = op.toNat * 2 ^ 32 + arg.toNat := by
  rw [commandWord, BitVec.toNat_append, ← Nat.shiftLeft_add_eq_or_of_lt arg.isLt, Nat.shiftLeft_eq]

/-- Settles O15. -/
theorem responseWordHasStatusAndValue : Obligations.ResponseWordHasStatusAndValue := by
  unfold Obligations.ResponseWordHasStatusAndValue
  refine ⟨fun r => ⟨?_, ?_, ?_⟩, rfl, rfl, rfl, rfl, fun st => ?_, fun v s => ?_, fun f s => ?_⟩
  · rw [word_eq_commandWord, toNat_commandWord]
  · exact opField_commandWord r.st.code r.val
  · exact argField_commandWord r.st.code r.val
  · rcases st with _ | (_ | _ | _) <;> decide
  · exact ⟨_, _, rfl, answer_response _ s, rfl⟩
  · exact ⟨_, _, rfl, answer_response _ s, rfl⟩

/-! ### The pseudo-instructions (R70) -/

/-- A line's move depends on whether it is allowed, on its word and on its buffer. -/
theorem assemble_congr {l l' : AsmLine} (hwf : l.wellFormed = l'.wellFormed) (hword : l.word = l'.word)
    (hbytes : l.bytes = l'.bytes) : l.assemble = l'.assemble := by
  simp only [AsmLine.assemble, hwf, hword, hbytes]

/-- Settles O16: each expansion agrees in all that `assemble` reads; the seed 0 is always allowed. -/
theorem pseudoInstructionsExpand : Obligations.PseudoInstructionsExpand := by
  unfold Obligations.PseudoInstructionsExpand
  constructor
  · intro buf
    have hwf : (AsmLine.crcUnseeded buf).wellFormed = (AsmLine.crc buf 0).wellFormed := by
      simp [AsmLine.wellFormed, WellFormed.argument]
    exact assemble_congr hwf rfl rfl
  · intro x
    exact assemble_congr rfl rfl rfl

end Sys2Proof.Machine

/-! PROOFS. The statements of `40_bit_reflector.md` R84, R85 and R86. -/

namespace Sys2Proof.Machine

/-! ### The operand and the value, bit by bit (R64, R84, R85) -/

/-- The operand of `REV8` is the low byte of `ARG`. -/
theorem getLsbD_argByte (arg : Word) (k : Nat) :
    (argByte arg).getLsbD k = (decide (k < 8) && arg.getLsbD k) := by
  simp [argByte]

/-- The operand of `REV16` is the low half of `ARG`. -/
theorem getLsbD_argHalf (arg : Word) (k : Nat) :
    (argHalf arg).getLsbD k = (decide (k < 16) && arg.getLsbD k) := by
  simp [argHalf]

/-- Zero extension to a word keeps every bit, those past the operand's width being zero before and after. -/
theorem getLsbD_setWidth_word {w : Nat} (hw : w ≤ 32) (x : BitVec w) (k : Nat) :
    (x.setWidth 32).getLsbD k = x.getLsbD k := by
  have inWord : x.getLsbD k = true → k < 32 := fun hk => (BitVec.lt_of_getLsbD hk).trans_le hw
  simpa using inWord

/-! ### What the reflector answers (R80) -/

/-- `v` is `reverseN(arg, n)` as a word: the low `n` bits of `arg` in reverse order, and zeros above them. -/
def ReversesLow (n : Nat) (arg v : Word) : Prop :=
  ∀ j, v.getLsbD j = (decide (j < n) && arg.getLsbD (n - 1 - j))

/-- Bit `k` of the operand stands at bit `n-1-k` of the value. -/
theorem ReversesLow.mirrored {n : Nat} {arg v : Word} (h : ReversesLow n arg v) {k : Nat} (hk : k < n) :
    v.getLsbD (n - 1 - k) = arg.getLsbD k := by
  have inRange : n - 1 - k < n := by omega
  have back : n - 1 - (n - 1 - k) = k := by omega
  rw [h, back]
  simp [inRange]

/-- The value is zero from bit `n` up. -/
theorem ReversesLow.above {n : Nat} {arg v : Word} (h : ReversesLow n arg v) {k : Nat} (hk : n ≤ k) :
    v.getLsbD k = false := by
  rw [h]
  simp [Nat.not_lt.mpr hk]

theorem rev8Value_reversesLow (arg : Word) : ReversesLow 8 arg (zextByte (reverse8 (argByte arg))) := by
  intro j
  have inByte : 7 - j < 8 := by omega
  rw [zextByte, getLsbD_setWidth_word (by decide), getLsbD_reverse8, getLsbD_argByte]
  simp [inByte]

theorem rev16Value_reversesLow (arg : Word) : ReversesLow 16 arg (zextHalf (reverse16 (argHalf arg))) := by
  intro j
  have inHalf : 15 - j < 16 := by omega
  rw [zextHalf, getLsbD_setWidth_word (by decide), getLsbD_reverse16, getLsbD_argHalf]
  simp [inHalf]

theorem rev32Value_reversesLow (arg : Word) : ReversesLow 32 arg (reverse32 arg) := getLsbD_reverse32 arg

/-! ### The three commands (R84, R85, R86) -/

/-- Settles O18: the operand decodes as `ARG[7:0]`, and the value reverses it. -/
theorem rev8ReversesTheLowByte : Obligations.Rev8ReversesTheLowByte := by
  unfold Obligations.Rev8ReversesTheLowByte
  intro arg s
  have hv := rev8Value_reversesLow arg
  exact ⟨argByte arg, _, decode_op01 arg, execRev8_eq _ s, fun _ => hv.mirrored, fun _ => hv.above⟩

/-- Settles O19: the operand decodes as `ARG[15:0]`, and the value reverses it. -/
theorem rev16ReversesTheLowHalf : Obligations.Rev16ReversesTheLowHalf := by
  unfold Obligations.Rev16ReversesTheLowHalf
  intro arg s
  have hv := rev16Value_reversesLow arg
  exact ⟨argHalf arg, _, decode_op02 arg, execRev16_eq _ s, fun _ => hv.mirrored, fun _ => hv.above⟩

/-- Settles O20: the whole of `ARG` is the operand, and the value reverses it. -/
theorem rev32ReversesTheWord : Obligations.Rev32ReversesTheWord := by
  unfold Obligations.Rev32ReversesTheWord
  intro arg s
  exact ⟨_, decode_op03 arg, execRev32_eq arg s, fun _ => (rev32Value_reversesLow arg).mirrored⟩

end Sys2Proof.Machine

/-! PROOFS. The statements of `41_table_builder.md` R94 and R96. -/

namespace Sys2Proof.Machine

/-! ### Commands without an operand (R64, R67 (c)) -/

/-- A command without an operand accepts `ARG = 0`. -/
theorem decodeBare_zero (op : Byte) (i : Instr) : decodeBare op 0#32 i = .ok i := if_pos rfl

/-- A command without an operand rejects every other `ARG`. -/
theorem decodeBare_of_ne_zero (op : Byte) {arg : Word} (h : arg ≠ 0#32) (i : Instr) :
    decodeBare op arg i = .error (.argumentNotZero op arg) := if_neg h

/-! ### What `BUILD` writes and answers (R96) -/

/-- Settles O24: the table written is `buildTable RPOLY`, read entry by entry. -/
theorem buildWritesTheWholeTable : Obligations.BuildWritesTheWholeTable := by
  unfold Obligations.BuildWritesTheWholeTable
  refine ⟨fun s => ?_, ?_, fun arg harg => ?_⟩
  · exact ⟨buildTable RPOLY, execBuild_eq s, fun i => by rw [entry_buildTable, rpoly_eq], rfl⟩
  · exact (decode_op04 0#32).trans (decodeBare_zero _ _)
  · exact ⟨_, (decode_op04 arg).trans (decodeBare_of_ne_zero _ harg _)⟩

/-! ### A table that is already built (R94) -/

/-- The invariant fixes the table of a state with `TV = 1`: it is the one that `BUILD` writes. -/
theorem State.TableSound.table_eq {s : State} (hs : s.TableSound) (htv : s.tv = true) :
    s.table = some (buildTable RPOLY) := by
  obtain ⟨t, ht⟩ := Option.isSome_iff_exists.mp htv
  rw [ht]
  refine congrArg some (table_ext fun i => ?_)
  rw [hs t ht i, entry_buildTable]

/-- Settles O25: `BUILD` writes `buildTable RPOLY` from every state, and a built table holds it already. -/
theorem secondBuildChangesNoEntry : Obligations.SecondBuildChangesNoEntry := by
  unfold Obligations.SecondBuildChangesNoEntry
  refine ⟨fun s => ?_, fun s hs htv => ?_⟩
  · exact ⟨_, _, execBuild_eq s, execBuild_eq _, rfl, rfl⟩
  · exact ⟨_, execBuild_eq s, (hs.table_eq htv).symm, rfl, rfl⟩

end Sys2Proof.Machine

/-! PROOFS. The statements of `42_checksum_engine.md` R102 and R109. -/

namespace Sys2Proof.Machine

/-! ### The pure function on a concatenation (R102, R109) -/

/-- The pre-complement undoes the post-complement. -/
theorem xor_fmask_xor_fmask (x : Word) : x ^^^ FMASK ^^^ FMASK = x := by
  rw [BitVec.xor_assoc, BitVec.xor_self, BitVec.xor_zero]

/-- The second call takes up the accumulator where the first one left it: between the two calls the result is
complemented twice. -/
theorem crc32_append (t : Table) (A B : List Byte) (seed : Word) :
    crc32 t (A ++ B) seed = crc32 t B (crc32 t A seed) := by
  have resumed : crc32 t A seed ^^^ FMASK = A.foldl (crcStep t) (seed ^^^ FMASK) := xor_fmask_xor_fmask _
  rw [crc32, List.foldl_append, ← resumed]
  rfl

/-! ### The command (R102, R109) -/

/-- Settles O31: the value that the statement writes out is `crc32`, and `CRC` answers `crc32`. -/
theorem crcComputesTheChecksum : Obligations.CrcComputesTheChecksum := by
  unfold Obligations.CrcComputesTheChecksum
  intro s t data seed ht hlen hreadable
  exact execCrc_readable ht hlen hreadable seed

/-- Settles O35: the three calls answer `crc32` of their bytes over the same table, and `crc32_append` relates
the answers. -/
theorem chainedChecksumsEqualOneChecksum : Obligations.ChainedChecksumsEqualOneChecksum := by
  unfold Obligations.ChainedChecksumsEqualOneChecksum
  intro s A B seed htv
  obtain ⟨t, ht⟩ := Option.isSome_iff_exists.mp htv
  have joined := execCrc_bound ht (A ++ B) seed
  rw [crc32_append] at joined
  exact ⟨_, _, _, crc32 t A seed, crc32 t B (crc32 t A seed), execCrc_bound ht A seed, rfl,
    execCrc_bound ht B (crc32 t A seed), rfl, joined, rfl⟩

end Sys2Proof.Machine

/-! PROOFS. The statements of `43_inspection.md` R115, R116, R117, R118 and R119. -/

namespace Sys2Proof.Machine

/-! ### What a response depends on (R33) -/

/-- The loop of `CRC` sees a buffer through `MemRead` only. -/
theorem absorb_congr {buf buf' : Buffer} (hread : ∀ k, memRead buf k = memRead buf' k) (t : Table) (n : Nat) :
    ∀ (k : Nat) (acc : Word), absorb t buf n k acc = absorb t buf' n k acc := by
  induction n with
  | zero => intros; rfl
  | succ n ih => intro k acc; simp only [absorb_succ, hread, ih]

/-- States with the same table, whose buffers have the same length and read alike, give every command the same
response (R33). -/
theorem exec_same_response {s s' : State} (htable : s.table = s'.table)
    (hread : ∀ k, memRead s.buffer k = memRead s'.buffer k) (hlen : s.buffer.len = s'.buffer.len) (i : Instr) :
    ∃ r, exec i s = .next (answer r (blockAfter i s)) ∧ exec i s' = .next (answer r (blockAfter i s')) := by
  cases i with
  | rev8 x => exact ⟨_, execRev8_eq x s, execRev8_eq x s'⟩
  | rev16 x => exact ⟨_, execRev16_eq x s, execRev16_eq x s'⟩
  | rev32 x => exact ⟨_, execRev32_eq x s, execRev32_eq x s'⟩
  | build => exact ⟨_, execBuild_eq s, execBuild_eq s'⟩
  | crc seed =>
    cases h' : s'.table with
    | none => exact ⟨_, execCrc_unbuilt (htable.trans h') seed, execCrc_unbuilt h' seed⟩
    | some t =>
      have hcrc := execCrc_built (htable.trans h') seed
      rw [hlen, absorb_congr hread] at hcrc
      exact ⟨_, hcrc, execCrc_built h' seed⟩
  | rdtab n =>
    cases h' : s'.table with
    | none => exact ⟨_, execRdtab_unbuilt (htable.trans h') n, execRdtab_unbuilt h' n⟩
    | some t => exact ⟨_, execRdtab_built (htable.trans h') n, execRdtab_built h' n⟩
  | rdpoly => exact ⟨_, execRdpoly_eq s, execRdpoly_eq s'⟩
  | rdrpoly => exact ⟨_, execRdrpoly_eq s, execRdrpoly_eq s'⟩
  | rdstat =>
    have hstatus : s.statusWord = s'.statusWord := by simp only [State.statusWord, State.tv, htable]
    exact ⟨_, execRdstat_eq s, hstatus ▸ execRdstat_eq s'⟩

/-- Every command but `BUILD` leaves the block as it is, but for the answer (R103, R119). -/
theorem blockAfter_of_ne_build {i : Instr} (hi : i ≠ .build) (s : State) : blockAfter i s = s := by
  cases i with
  | build => exact absurd rfl hi
  | rev8 | rev16 | rev32 | crc | rdtab | rdpoly | rdrpoly | rdstat => rfl

/-- Settles O45: the answer to `i` stands in neither the table nor the buffer, and `j` reads nothing else. -/
theorem inspectionChangesNoOtherResponse : Obligations.InspectionChangesNoOtherResponse := by
  unfold Obligations.InspectionChangesNoOtherResponse
  intro i j s hbuild _
  obtain ⟨ri, hi⟩ := exec_shape i s
  rw [blockAfter_of_ne_build hbuild] at hi
  obtain ⟨r, hj, hj'⟩ :=
    exec_same_response (answer_table ri s).symm (fun _ => rfl) (congrArg Buffer.len (answer_buffer ri s).symm) j
  exact ⟨_, _, _, r, hi, rfl, rfl, rfl, hj, hj', rfl, rfl⟩

/-! ### Table entries (R115) -/

/-- `TV = 0` says that no entry is written (R24). -/
theorem State.table_eq_none {s : State} (htv : s.tv = false) : s.table = none := by
  simpa [State.tv] using htv

/-- Settles O41. -/
theorem rdtabReadsOneEntry : Obligations.RdtabReadsOneEntry := by
  unfold Obligations.RdtabReadsOneEntry
  refine ⟨fun s t n ht => execRdtab_built ht n, fun s n htv => execRdtab_unbuilt (State.table_eq_none htv) n,
    fun arg => ⟨fun hbyte => ?_, fun hwide => ⟨.indexNotByte arg, ?_⟩⟩⟩
  · exact (decode_op06 arg).trans (if_pos hbyte)
  · exact (decode_op06 arg).trans (if_neg hwide)

/-! ### The two forms of the polynomial (R116, R117) -/

/-- An `OP` whose command has no operand is legal with `ARG = 0` only (R67 (c)). -/
theorem decode_bare {op : Byte} {i : Instr} (hop : ∀ arg, decode (commandWord op arg) = decodeBare op arg i) :
    decode (commandWord op 0#32) = .ok i ∧ ∀ arg, arg ≠ 0#32 → ∃ e, decode (commandWord op arg) = .error e :=
  ⟨(hop 0#32).trans (decodeBare_zero op i), fun arg harg => ⟨_, (hop arg).trans (decodeBare_of_ne_zero op harg i)⟩⟩

/-- Settles O42. -/
theorem rdpolyReadsThePolynomial : Obligations.RdpolyReadsThePolynomial := by
  unfold Obligations.RdpolyReadsThePolynomial
  obtain ⟨hlegal, hrejected⟩ := decode_bare decode_op07
  exact ⟨execRdpoly_eq, hlegal, hrejected⟩

/-- Entry 128 is the reflected polynomial itself: of the index only bit 7 is set, and the builder meets it last. -/
theorem buildEntry_highBit (rp : Word) : buildEntry rp 0x80#8 = rp := by
  have untouched : (List.range 7).foldl (builderStep rp) ((0x80#8).setWidth VW, 0#32) = (0x80#32, 0#32) := by
    simp [builderStep, VW, List.range_succ]
  rw [buildEntry, builderFinal, List.range_succ, List.foldl_append, untouched]
  simp [builderStep, VW]

/-- Settles O43: `RPOLY` is by definition the reversal of `POLY`, and entry 128 of a sound table is `RPOLY`. -/
theorem rdrpolyReadsTheReflectedPolynomial : Obligations.RdrpolyReadsTheReflectedPolynomial := by
  unfold Obligations.RdrpolyReadsTheReflectedPolynomial
  obtain ⟨hlegal, hrejected⟩ := decode_bare decode_op08
  refine ⟨fun s => ?_, hlegal, hrejected, fun s => ?_, fun s hs htv => ?_⟩
  · rw [← rpoly_eq]; exact execRdrpoly_eq s
  · exact ⟨_, POLY, _, _, execRdpoly_eq s, rfl, execRev32_eq POLY _, execRdrpoly_eq s, rfl⟩
  · have hrdtab := execRdtab_built (hs.table_eq htv) 128#8
    rw [entry_buildTable, buildEntry_highBit] at hrdtab
    exact ⟨_, _, execRdrpoly_eq s, hrdtab, rfl⟩

/-! ### The status word (R118) -/

/-- `STATUS`, bit by bit (R31). -/
theorem getLsbD_statusWord (s : State) (k : Nat) : s.statusWord.getLsbD k = (decide (k = 0) && s.tv) := by
  rw [State.statusWord, getLsbD_setWidth_word (by decide), BitVec.getLsbD_ofBool]

/-- Settles O44. -/
theorem rdstatReadsTheStatusWord : Obligations.RdstatReadsTheStatusWord := by
  unfold Obligations.RdstatReadsTheStatusWord
  obtain ⟨hlegal, hrejected⟩ := decode_bare decode_op09
  refine ⟨fun s => ⟨s.statusWord, execRdstat_eq s, ?_, fun k hk => ?_⟩, hlegal, hrejected⟩
  · exact getLsbD_statusWord s 0
  · have hk0 : k ≠ 0 := by omega
    simp [getLsbD_statusWord, hk0]

end Sys2Proof.Machine

/-! PROOFS. The statements of `60_exceptions.md` R131, R132, R133 and R136. -/

namespace Sys2Proof.Machine

/-! ### The reserved words (R67, R131) -/

/-- The fields of a reserved word: the groups (a) to (d) of R67. -/
def ReservedFields (op : Byte) (arg : Word) : Prop :=
  op = 0x00#8 ∨ 0x0A#8 ≤ op ∨
    ((op = 0x04#8 ∨ op = 0x07#8 ∨ op = 0x08#8 ∨ op = 0x09#8) ∧ arg ≠ 0#32) ∨
    (op = 0x06#8 ∧ argAboveByte arg ≠ 0#24)

/-- A command without an operand is rejected exactly when `ARG` is not zero (R67 (c)). -/
theorem decodeBare_error_iff (op : Byte) (arg : Word) (i : Instr) :
    (∃ e, decodeBare op arg i = .error e) ↔ arg ≠ 0#32 := by
  by_cases h : arg = 0#32 <;> simp [decodeBare, h]

/-- The decoder rejects the words of R67 and no others. -/
theorem decode_error_iff (op : Byte) (arg : Word) :
    (∃ e, decode (commandWord op arg) = .error e) ↔ ReservedFields op arg := by
  rcases opcode_cases op with rfl | rfl | rfl | rfl | rfl | rfl | rfl | rfl | rfl | rfl | above
  · simp [decode_op01, ReservedFields]
  · simp [decode_op02, ReservedFields]
  · simp [decode_op03, ReservedFields]
  · simp [decode_op04, decodeBare_error_iff, ReservedFields]
  · simp [decode_op05, ReservedFields]
  · by_cases hbyte : argAboveByte arg = 0#24 <;> simp [decode_op06, hbyte, ReservedFields]
  · simp [decode_op07, decodeBare_error_iff, ReservedFields]
  · simp [decode_op08, decodeBare_error_iff, ReservedFields]
  · simp [decode_op09, decodeBare_error_iff, ReservedFields]
  · simp [decode_op00, ReservedFields]
  · exact iff_of_true ⟨_, decode_opAboveMap arg above⟩ (.inr (.inl above))

/-- `ARG[31:8]` is `CW[31:8]` (R61). -/
theorem argAboveByte_argField (cw : CmdWord) : argAboveByte (argField cw) = cw.extractLsb' 8 24 := by
  apply BitVec.eq_of_getLsbD_eq
  intro i _
  simp [argAboveByte, argField]

/-- A rejected word in progress ends in `IllegalCommand`, whatever the state (R131). -/
theorem runCommand_rejected {cw : CmdWord} {e : Reserved} (hd : decode cw = .error e) (s : State) :
    runCommand cw s = .next (answer ⟨.faulted .illegalCommand, 0#32⟩ s) := by
  simp [runCommand, hd, raise]

/-- A legal word in progress runs its command (R66). -/
theorem runCommand_legal {cw : CmdWord} {i : Instr} (hd : decode cw = .ok i) (s : State) :
    runCommand cw s = exec i s := by
  simp [runCommand, hd]

/-- Settles O14: `decode_error_iff` on the fields of the word, and what the step does with a rejected word. -/
theorem reservedWordsRaiseIllegalCommand : Obligations.ReservedWordsRaiseIllegalCommand := by
  unfold Obligations.ReservedWordsRaiseIllegalCommand
  intro s cw hc hw
  refine ⟨?_, ?_, rfl⟩
  · have rejected := decode_error_iff (opField cw) (argField cw)
    rw [commandWord_fields, ReservedFields, argAboveByte_argField] at rejected
    exact rejected.symm
  · rintro ⟨e, hd⟩
    exact (step_waits hc hw).trans (runCommand_rejected hd s.afterWait)

/-! ### Which response a command gets (R132, R133, R136) -/

/-- The commands that read the table (R132). -/
def ReadsTable (i : Instr) : Prop := (∃ seed, i = .crc seed) ∨ ∃ n, i = .rdtab n

/-- Some index below `LEN` is unreadable (R133). -/
def Buffer.HasUnreadable (b : Buffer) : Prop := ∃ k < b.len, memRead b k = none

/-- The responses that the order of checks allows a decoded command: the table-valid check, then the buffer, then a
result (R136). -/
inductive Allows (i : Instr) (s : State) : Response → Prop where
  | tableNotBuilt (reads : ReadsTable i) (htv : s.tv = false) : Allows i s ⟨.faulted .tableNotBuilt, 0#32⟩
  | bufferFault (isCrc : ∃ seed, i = .crc seed) (htv : s.tv = true) (hbuf : s.buffer.HasUnreadable) :
      Allows i s ⟨.faulted .bufferFault, 0#32⟩
  | ok (v : Word) (htable : ReadsTable i → s.tv = true)
      (hbuf : (∃ seed, i = .crc seed) → ¬ s.buffer.HasUnreadable) : Allows i s ⟨.ok, v⟩

/-- A command that does not read the table always has a result. -/
theorem exec_ok_of_not_readsTable {i : Instr} (hi : ¬ ReadsTable i) (s : State) :
    ∃ v, exec i s = .next (answer ⟨.ok, v⟩ (blockAfter i s)) := by
  cases i with
  | rev8 x => exact ⟨_, execRev8_eq x s⟩
  | rev16 x => exact ⟨_, execRev16_eq x s⟩
  | rev32 x => exact ⟨_, execRev32_eq x s⟩
  | build => exact ⟨_, execBuild_eq s⟩
  | crc seed => exact absurd (.inl ⟨seed, rfl⟩) hi
  | rdtab n => exact absurd (.inr ⟨n, rfl⟩) hi
  | rdpoly => exact ⟨_, execRdpoly_eq s⟩
  | rdrpoly => exact ⟨_, execRdrpoly_eq s⟩
  | rdstat => exact ⟨_, execRdstat_eq s⟩

/-- Every command gives a response that the order of checks allows. -/
theorem exec_allows (i : Instr) (s : State) :
    ∃ r, exec i s = .next (answer r (blockAfter i s)) ∧ Allows i s r := by
  by_cases reads : ReadsTable i
  · rcases reads with ⟨seed, rfl⟩ | ⟨n, rfl⟩
    · rcases execCrc_cases seed s with ⟨htv, h⟩ | ⟨htv, hbuf, h⟩ | ⟨htv, hbuf, v, h⟩
      · exact ⟨_, h, .tableNotBuilt (.inl ⟨seed, rfl⟩) htv⟩
      · exact ⟨_, h, .bufferFault ⟨seed, rfl⟩ htv hbuf⟩
      · exact ⟨_, h, .ok v (fun _ => htv) fun _ => hbuf⟩
    · rcases execRdtab_cases n s with ⟨htv, h⟩ | ⟨htv, v, h⟩
      · exact ⟨_, h, .tableNotBuilt (.inr ⟨n, rfl⟩) htv⟩
      · exact ⟨_, h, .ok v (fun _ => htv) nofun⟩
  · obtain ⟨v, h⟩ := exec_ok_of_not_readsTable reads s
    exact ⟨_, h, .ok v (absurd · reads) fun isCrc => absurd (.inl isCrc) reads⟩

/-- The response in the state after a command is one that the order of checks allows. -/
theorem allows_of_exec {i : Instr} {s t : State} {r : Response} (hexec : exec i s = .next t)
    (hr : t.response = some r) : Allows i s r := by
  obtain ⟨r', hanswer, hallows⟩ := exec_allows i s
  obtain rfl := Host.Outcome.next.inj (hanswer.symm.trans hexec)
  obtain rfl := Option.some.inj hr
  exact hallows

/-- `CRC` over a buffer with an unreadable index ends in `BufferFault`, once the table is built (R133). -/
theorem execCrc_unreadable {s : State} (htv : s.tv = true) (hbuf : s.buffer.HasUnreadable) (seed : Word) :
    exec (.crc seed) s = .next (answer ⟨.faulted .bufferFault, 0#32⟩ s) := by
  rcases execCrc_cases seed s with ⟨hunbuilt, -⟩ | ⟨-, -, h⟩ | ⟨-, hreadable, -⟩
  · exact absurd htv (by simp [hunbuilt])
  · exact h
  · exact absurd hbuf hreadable

/-- Settles O33: of the responses that the order of checks allows, one is `BufferFault`. -/
theorem unreadableByteRaisesBufferFault : Obligations.UnreadableByteRaisesBufferFault := by
  unfold Obligations.UnreadableByteRaisesBufferFault
  refine ⟨fun s seed k htv hk hread => execCrc_unreadable htv ⟨k, hk, hread⟩ seed,
    fun i s t v hexec hr => ?_, rfl⟩
  cases allows_of_exec hexec hr with
  | bufferFault isCrc htv hbuf =>
    obtain ⟨k, hk, hread⟩ := hbuf
    exact ⟨isCrc, htv, Nat.zero_lt_of_lt hk, k, hk, hread⟩

/-- Settles O34: of the responses that the order of checks allows, one is `TableNotBuilt`. -/
theorem tableReadBeforeBuildFaults : Obligations.TableReadBeforeBuildFaults := by
  unfold Obligations.TableReadBeforeBuildFaults
  refine ⟨fun s htv => ⟨execCrc_unbuilt (State.table_eq_none htv), execRdtab_unbuilt (State.table_eq_none htv)⟩,
    fun i s t v hexec hr => ?_, rfl⟩
  cases allows_of_exec hexec hr with
  | tableNotBuilt reads htv => exact ⟨htv, reads⟩

/-- The order of checks leaves one status: the conditions of R136, each with the response it asks for. -/
theorem Allows.priority {i : Instr} {s : State} {r : Response} (h : Allows i s r) :
    (ReadsTable i ∧ s.tv = false → r = ⟨.faulted .tableNotBuilt, 0#32⟩) ∧
    ((∃ seed, i = .crc seed) ∧ s.tv = true ∧ s.buffer.HasUnreadable → r = ⟨.faulted .bufferFault, 0#32⟩) ∧
    (¬ (ReadsTable i ∧ s.tv = false) →
      ¬ ((∃ seed, i = .crc seed) ∧ s.tv = true ∧ s.buffer.HasUnreadable) → r.st = .ok) := by
  cases h with
  | tableNotBuilt reads htv => simp [reads, htv]
  | bufferFault isCrc htv hbuf => simp [isCrc, htv, hbuf]
  | ok v htable hbuf =>
    refine ⟨fun ⟨reads, htv⟩ => ?_, fun ⟨isCrc, _, hunreadable⟩ => absurd hunreadable (hbuf isCrc), fun _ _ => rfl⟩
    exact absurd (htable reads) (by simp [htv])

/-- Settles O46: decode comes first, and a decoded command meets `Allows.priority`; the host's wait changes neither
the table nor the buffer. -/
theorem faultCausesAndPriority : Obligations.FaultCausesAndPriority := by
  unfold Obligations.FaultCausesAndPriority
  intro s cw hc hw
  rw [step_waits hc hw]
  cases hd : decode cw with
  | error e => exact ⟨_, _, runCommand_rejected hd _, rfl, fun _ _ => rfl, nofun⟩
  | ok i =>
    obtain ⟨r, hexec, hallows⟩ := exec_allows i s.afterWait
    refine ⟨_, r, (runCommand_legal hd _).trans hexec, rfl, nofun, fun j hj => ?_⟩
    obtain rfl := Except.ok.inj hj
    exact hallows.priority

end Sys2Proof.Machine

/-! PROOFS. The statement of `70_reset_and_hazards.md` R150. -/

namespace Sys2Proof.Machine

/-- A reset that comes while the block is idle or busy has one and the same effect (R150, R151). -/
theorem step_reset {s : State} {rest : List HostMove} (hm : s.hostMoves = .reset :: rest) :
    step s = .next (assertReset rest s) := by
  cases hc : s.command with
  | none => rw [step_idle hc, idleStep, hm]
  | some cw => rw [step_busy hc, busyStep, hm]

/-- With `TV = 0` the whole status word is 0 (R31). -/
theorem statusWord_of_not_tv {s : State} (htv : s.tv = false) : s.statusWord = 0x00000000#32 := by
  rw [State.statusWord, htv]; rfl

/-- Settles O1: the step is `step_reset`, and each inspection command reads the reset block by its own equation. -/
theorem resetReturnsTheInitialState : Obligations.ResetReturnsTheInitialState := by
  unfold Obligations.ResetReturnsTheInitialState
  intro s rest hm
  have rdstat := execRdstat_eq (assertReset rest s)
  rw [statusWord_of_not_tv (assertReset_tv rest s)] at rdstat
  have rdrpoly := execRdrpoly_eq (assertReset rest s)
  rw [rpoly_eq] at rdrpoly
  exact ⟨assertReset rest s, step_reset hm, assertReset_tv rest s, assertReset_table rest s,
    assertReset_command rest s, assertReset_response rest s, rdstat, execRdpoly_eq _, rdrpoly,
    execRdtab_unbuilt (assertReset_table rest s)⟩

end Sys2Proof.Machine

/-! PROOFS. The statements of `30_encoding.md` R61, R64, R65 and R69 on decoder, encoder and written lines. -/

namespace Sys2Proof.Machine

/-! ### Decode after encode (R65, R66) -/

/-- Settles O11: the decoder's equation for each `OP`, on the `ARG` that the encoder writes. -/
theorem decodingAnEncodedCommandGivesItBack : Obligations.DecodingAnEncodedCommandGivesItBack := by
  unfold Obligations.DecodingAnEncodedCommandGivesItBack
  intro i
  cases i with
  | rev8 x => exact (decode_op01 _).trans (by rw [Instr.argument, argByte_setWidth])
  | rev16 x => exact (decode_op02 _).trans (by rw [Instr.argument, argHalf_setWidth])
  | rev32 x => exact decode_op03 x
  | build => exact (decode_bare decode_op04).1
  | crc seed => exact decode_op05 seed
  | rdtab n =>
    refine (decode_op06 _).trans ((if_pos (argAboveByte_setWidth n)).trans ?_)
    rw [Instr.argument, argByte_setWidth]
  | rdpoly => exact (decode_bare decode_op07).1
  | rdrpoly => exact (decode_bare decode_op08).1
  | rdstat => exact (decode_bare decode_op09).1

/-! ### Encode after decode (R64, R69) -/

/-- A word masked is its fields masked. -/
theorem commandWord_and (op : Byte) (arg : Word) (mask : CmdWord) :
    commandWord op arg &&& mask = commandWord (op &&& opField mask) (arg &&& argField mask) := by
  rw [word_eq_iff]
  simp [opField_and, argField_and]

/-- A word without ignored bits is kept whole. -/
theorem commandWord_and_ones (op : Byte) (arg : Word) :
    commandWord op arg &&& 0xFFFFFFFFFF#40 = commandWord op arg := by
  rw [show 0xFFFFFFFFFF#40 = BitVec.allOnes 40 by decide, BitVec.and_allOnes]

/-- A command without an operand is decoded from `ARG = 0` only, and as itself. -/
theorem decodeBare_ok_iff {op : Byte} {arg : Word} {i j : Instr} :
    decodeBare op arg i = .ok j ↔ arg = 0#32 ∧ i = j := by
  by_cases h : arg = 0#32 <;> simp [decodeBare, h]

/-- The word of a command without an operand comes back whole. -/
theorem encode_of_decodeBare {op : Byte} {arg : Word} {i j : Instr} (hd : decodeBare op arg i = .ok j)
    (hop : i.opcode = op) (harg : i.argument = 0#32) (hbits : i.significantBits = 0xFFFFFFFFFF#40) :
    encode j = commandWord op arg &&& j.significantBits := by
  obtain ⟨rfl, rfl⟩ := decodeBare_ok_iff.mp hd
  rw [hbits, commandWord_and_ones, encode, hop, harg]

/-- An index that passes `RDTAB`'s check is the whole of `ARG` (R67 (d)). -/
theorem setWidth_argByte_of_above_zero {arg : Word} (h : argAboveByte arg = 0#24) :
    (argByte arg).setWidth 32 = arg := by
  have split : arg &&& 0xFFFFFFFF#32 = (arg &&& 0xFFFFFF00#32) ||| (arg &&& 0x000000FF#32) := by
    rw [← BitVec.and_or_distrib_left]; rfl
  rw [and_ones32, (argAboveByte_eq_zero arg).mp h, BitVec.zero_or] at split
  rw [setWidth_argByte, ← split]

/-- `EncodingADecodedWordKeepsItsBits`, on the fields of the word. -/
theorem encode_of_decode_commandWord {op : Byte} {arg : Word} {i : Instr} (hd : decode (commandWord op arg) = .ok i) :
    encode i = commandWord op arg &&& i.significantBits := by
  rcases opcode_cases op with rfl | rfl | rfl | rfl | rfl | rfl | rfl | rfl | rfl | rfl | above
  · obtain rfl := Except.ok.inj ((decode_op01 arg).symm.trans hd)
    rw [Instr.significantBits, commandWord_and, encode, Instr.argument, setWidth_argByte]; rfl
  · obtain rfl := Except.ok.inj ((decode_op02 arg).symm.trans hd)
    rw [Instr.significantBits, commandWord_and, encode, Instr.argument, setWidth_argHalf]; rfl
  · obtain rfl := Except.ok.inj ((decode_op03 arg).symm.trans hd)
    exact (commandWord_and_ones _ arg).symm
  · exact encode_of_decodeBare (decode_op04 arg ▸ hd) rfl rfl rfl
  · obtain rfl := Except.ok.inj ((decode_op05 arg).symm.trans hd)
    exact (commandWord_and_ones _ arg).symm
  · rw [decode_op06] at hd
    split at hd
    · next hbyte =>
      obtain rfl := Except.ok.inj hd
      rw [Instr.significantBits, commandWord_and_ones, encode, Instr.argument, setWidth_argByte_of_above_zero hbyte]
      rfl
    · cases hd
  · exact encode_of_decodeBare (decode_op07 arg ▸ hd) rfl rfl rfl
  · exact encode_of_decodeBare (decode_op08 arg ▸ hd) rfl rfl rfl
  · exact encode_of_decodeBare (decode_op09 arg ▸ hd) rfl rfl rfl
  · rw [decode_op00] at hd; cases hd
  · rw [decode_opAboveMap arg above] at hd; cases hd

/-- Settles O12: every word is its two fields. -/
theorem encodingADecodedWordKeepsItsBits : Obligations.EncodingADecodedWordKeepsItsBits := by
  unfold Obligations.EncodingADecodedWordKeepsItsBits
  intro cw i hd
  rw [← commandWord_fields cw] at hd ⊢
  exact encode_of_decode_commandWord hd

/-! ### Written lines (R69) -/

/-- `ARG[7:0]` of a number is the number's low byte. -/
theorem argByte_ofNat (x : Nat) : argByte (BitVec.ofNat 32 x) = BitVec.ofNat 8 x := by
  apply BitVec.eq_of_toNat_eq
  simp only [argByte, BitVec.extractLsb'_toNat, BitVec.toNat_ofNat, Nat.shiftRight_zero]
  omega

/-- `ARG[15:0]` of a number is the number's low half. -/
theorem argHalf_ofNat (x : Nat) : argHalf (BitVec.ofNat 32 x) = BitVec.ofNat 16 x := by
  apply BitVec.eq_of_toNat_eq
  simp only [argHalf, BitVec.extractLsb'_toNat, BitVec.toNat_ofNat, Nat.shiftRight_zero]
  omega

/-- The number of a table index fills no bit of `ARG[31:8]`. -/
theorem argAboveByte_ofNat {n : Nat} (h : n ≤ 255) : argAboveByte (BitVec.ofNat 32 n) = 0#24 := by
  apply BitVec.eq_of_toNat_eq
  simp only [argAboveByte, BitVec.extractLsb'_toNat, BitVec.toNat_ofNat, Nat.shiftRight_eq_div_pow]
  omega

/-- `RDTAB i` decodes to `RDTAB` of `i`. -/
theorem decode_word_rdtab {n : Nat} (h : n ≤ 255) :
    decode (AsmLine.rdtab n).word = .ok (.rdtab (BitVec.ofNat 8 n)) :=
  (decode_op06 _).trans ((if_pos (argAboveByte_ofNat h)).trans (by rw [argByte_ofNat]))

/-- Every well-formed line has a legal word. -/
theorem decode_word_of_wellFormed {l : AsmLine} (h : l.wellFormed = true) : ∃ i, decode l.word = .ok i := by
  cases l with
  | rev8 => exact ⟨_, decode_op01 _⟩
  | rev16 => exact ⟨_, decode_op02 _⟩
  | rev32 | reflect => exact ⟨_, decode_op03 _⟩
  | build => exact ⟨_, (decode_bare decode_op04).1⟩
  | crc | crcUnseeded => exact ⟨_, decode_op05 _⟩
  | rdtab n => exact ⟨_, decode_word_rdtab (of_decide_eq_true h)⟩
  | rdpoly => exact ⟨_, (decode_bare decode_op07).1⟩
  | rdrpoly => exact ⟨_, (decode_bare decode_op08).1⟩
  | rdstat => exact ⟨_, (decode_bare decode_op09).1⟩

/-- Settles O17: the decoder's equation for each line, and the low bits of the number as written. -/
theorem assembledLinesDecode : Obligations.AssembledLinesDecode := by
  unfold Obligations.AssembledLinesDecode
  refine ⟨fun l => decode_word_of_wellFormed, fun x _ => ⟨?_, ?_, decode_op03 _, fun buf => decode_op05 _⟩,
    fun n => decode_word_rdtab⟩
  · exact (decode_op01 _).trans (by rw [argByte_ofNat])
  · exact (decode_op02 _).trans (by rw [argHalf_ofNat])

/-- Settles O10: the decoder computes on each of the thirteen words. -/
theorem sampleWordsDecode : Obligations.SampleWordsDecode := by
  unfold Obligations.SampleWordsDecode
  decide

end Sys2Proof.Machine

/-! PROOFS. What a step does, and the invariant it keeps: the statements of `00_scope.md` R13, `10_state.md` R23 and
R33, `20_memory.md` R42, `30_encoding.md` R60 to R62, `60_exceptions.md` R130, R134, R143 and R146 and
`70_reset_and_hazards.md` R161. -/

namespace Sys2Proof.Machine

/-! ### What a step with a command in progress can do -/

/-- Carrying out a word answers it, and changes the block only as its command does, if it decodes to one. -/
theorem runCommand_shape (cw : CmdWord) (s : State) :
    (∃ i r, decode cw = .ok i ∧ Allows i s r ∧ runCommand cw s = .next (answer r (blockAfter i s))) ∨
    (∃ e, decode cw = .error e ∧ runCommand cw s = .next (answer ⟨.faulted .illegalCommand, 0#32⟩ s)) := by
  cases hd : decode cw with
  | ok i =>
    obtain ⟨r, hexec, hallows⟩ := exec_allows i s
    exact .inl ⟨i, r, rfl, hallows, (runCommand_legal hd s).trans hexec⟩
  | error e => exact .inr ⟨e, rfl, runCommand_rejected hd s⟩

/-- Carrying out a word always gives a next state. -/
theorem runCommand_next (cw : CmdWord) (s : State) : ∃ t, runCommand cw s = .next t := by
  rcases runCommand_shape cw s with ⟨i, r, -, -, h⟩ | ⟨e, -, h⟩ <;> exact ⟨_, h⟩

/-! ### The invariant (R23, R24, R42, R62, R71) -/

/-- The table that `BUILD` writes is sound. -/
theorem tableSound_setTable (s : State) : (s.setTable (buildTable RPOLY)).TableSound := by
  intro t ht i
  obtain rfl := Option.some.inj ht
  exact entry_buildTable RPOLY i

/-- A state of the block after a command is sound when the one before is (R96, R103). -/
theorem State.Inv.blockAfter {s : State} (h : s.Inv) (i : Instr) : (blockAfter i s).Inv := by
  by_cases hi : i = .build
  · subst hi
    exact ⟨tableSound_setTable s, h.bufferWf, h.lenAllowed, h.unanswered⟩
  · rwa [blockAfter_of_ne_build hi]

/-- An answer ends the command. -/
theorem State.Inv.answer {s : State} (h : s.Inv) (r : Response) : (answer r s).Inv :=
  ⟨h.tableSound, h.bufferWf, h.lenAllowed, nofun⟩

theorem State.Inv.advanceHost {s : State} (h : s.Inv) (rest : List HostMove) : (advanceHost rest s).Inv :=
  ⟨h.tableSound, h.bufferWf, h.lenAllowed, h.unanswered⟩

/-- The parameter allows the empty buffer, whatever it is. -/
theorem allowsLen_zero (c : Config) : c.allowsLen 0 = true := by
  unfold Config.allowsLen
  split <;> simp

/-- Reset meets the invariant from every state. -/
theorem inv_assertReset (rest : List HostMove) (s : State) : (assertReset rest s).Inv :=
  ⟨nofun, empty_wf, allowsLen_zero s.config, nofun⟩

/-- A buffer of an allowed length may be presented. -/
theorem State.Inv.present {s : State} (h : s.Inv) (cw : CmdWord) {bytes : List (Option Byte)}
    (hlen : WellFormed.binding s.config bytes = true) (rest : List HostMove) : (present cw bytes rest s).Inv :=
  ⟨h.tableSound, ofBytes_wf bytes, hlen, fun _ => rfl⟩

/-- A move of the host keeps the invariant. -/
theorem State.Inv.idleStep {s t : State} (h : s.Inv) (hstep : idleStep s = .next t) : t.Inv := by
  rcases idleStep_next hstep with ⟨-, rfl⟩ | ⟨rest, -, rfl⟩ | ⟨rest, -, rfl⟩ | ⟨cw, bytes, rest, -, hlen, rfl⟩
  · exact h
  · exact h.advanceHost rest
  · exact inv_assertReset rest s
  · exact h.present cw hlen rest

/-- A move of the core keeps the invariant. -/
theorem State.Inv.runCommand {s t : State} (h : s.Inv) {cw : CmdWord} (hrun : runCommand cw s = .next t) : t.Inv := by
  rcases runCommand_shape cw s with ⟨i, r, -, -, hshape⟩ | ⟨e, -, hshape⟩
  · obtain rfl := Host.Outcome.next.inj (hshape.symm.trans hrun)
    exact (h.blockAfter i).answer r
  · obtain rfl := Host.Outcome.next.inj (hshape.symm.trans hrun)
    exact h.answer _

/-- Settles O55: each move of the host and of the core keeps the invariant. -/
theorem everyStepKeepsTheInvariant : Obligations.EveryStepKeepsTheInvariant := by
  unfold Obligations.EveryStepKeepsTheInvariant
  intro s t hs hstep
  rcases step_next hstep with ⟨-, hidle⟩ | ⟨cw, -, hbusy⟩
  · exact hs.idleStep hidle
  · rcases busyStep_next hbusy with ⟨rest, -, rfl⟩ | ⟨rest, -, hrun⟩
    · exact inv_assertReset rest s
    · exact (hs.advanceHost rest).runCommand hrun

/-- Settles O54: the start state is a reset state. -/
theorem resetStateMeetsTheInvariant : Obligations.ResetStateMeetsTheInvariant :=
  inv_assertReset [] State.reset

/-- Settles O53: the invariant fixes the table that `RDTAB` reads. -/
theorem rdtabReturnsTheBuiltEntry : Obligations.RdtabReturnsTheBuiltEntry := by
  unfold Obligations.RdtabReturnsTheBuiltEntry
  intro s n hs htv
  have hrdtab := execRdtab_built (hs.tableSound.table_eq htv) n
  rw [entry_buildTable, rpoly_eq] at hrdtab
  exact ⟨_, hrdtab, rfl⟩

/-! ### The moves of the host (R13, R60, R62, R146) -/

/-- What a step does when the host presents a command and none is in progress. -/
theorem step_issue {s : State} {cw : CmdWord} {bytes : List (Option Byte)} {rest : List HostMove}
    (hc : s.command = none) (hm : s.hostMoves = .issue cw bytes :: rest) :
    step s = if s.config.allowsLen bytes.length then .next (present cw bytes rest s)
      else .refused .bindingTooLong := by
  rw [step_idle hc, idleStep, hm]; rfl

/-- Settles O4: the command is presented, and its buffer reads as it was listed. -/
theorem presentedCommandBindsItsBuffer : Obligations.PresentedCommandBindsItsBuffer := by
  unfold Obligations.PresentedCommandBindsItsBuffer
  intro s cw bytes rest hc hm hlen
  refine ⟨present cw bytes rest s, (step_issue hc hm).trans (if_pos hlen), rfl, rfl, rfl, rfl, rfl, rfl,
    fun k hk => ?_, fun k hk => ?_⟩
  · rw [present_buffer, memRead_ofBytes, List.getElem?_eq_getElem hk]; rfl
  · rw [present_buffer, memRead_ofBytes, List.getElem?_eq_none hk]; rfl

/-- Settles O5. -/
theorem tooLongBufferIsNotPresented : Obligations.TooLongBufferIsNotPresented := by
  unfold Obligations.TooLongBufferIsNotPresented
  intro s cw bytes rest m hc hm hmax hlong
  have tooLong : s.config.allowsLen bytes.length = false := by simp [Config.allowsLen, hmax, hlong]
  rw [step_issue hc hm, tooLong]; rfl

/-- A step with no command in progress and a host that waits only takes the wait off the host's list. -/
theorem step_idle_waits {s : State} (hc : s.command = none) (hw : s.waits = true) : step s = .next s.afterWait := by
  rw [step_idle hc, idleStep]
  cases hm : s.hostMoves with
  | nil =>
    have unchanged : s.afterWait = s := by rw [State.afterWait, hm, List.tail_nil, ← hm, advanceHost_self]
    rw [unchanged]
  | cons m rest =>
    cases m with
    | await => rw [State.afterWait, hm]; rfl
    | reset | issue => simp [State.waits, hm] at hw

/-- Settles O9. -/
theorem idleBlockKeepsItsState : Obligations.IdleBlockKeepsItsState := by
  unfold Obligations.IdleBlockKeepsItsState
  intro s hc hw
  exact ⟨s.afterWait, step_idle_waits hc hw, rfl, rfl, hc, rfl, rfl⟩

/-! ### The moves of the core (R13, R66) -/

/-- Settles O6. -/
theorem stepRunsTheDecodedCommand : Obligations.StepRunsTheDecodedCommand := by
  unfold Obligations.StepRunsTheDecodedCommand
  intro s cw i hc hw hd
  exact (step_waits hc hw).trans (runCommand_legal hd _)

/-- The word that a number is read as is the one that decodes. -/
theorem decode_of_decodeTableWord {nbits w : Nat} {i : Instr} (h : decodeTableWord nbits w = some i) :
    decode (tableWord nbits w) = .ok i := by
  unfold decodeTableWord at h
  split at h
  · cases hd : decode (tableWord nbits w) with
    | ok j => simpa [hd] using h
    | error e => simp [hd] at h
  · cases h

/-- Settles O7: the wait that is put before the host's moves is what the step takes off. -/
theorem placedWordRunsNext : Obligations.PlacedWordRunsNext := by
  unfold Obligations.PlacedWordRunsNext
  intro s nbits w i h
  exact (step_waits rfl rfl).trans (runCommand_legal (decode_of_decodeTableWord h) _)

/-! ### Every command is answered (R161) -/

/-- A host that waits never has its step refused. -/
theorem step_next_of_waits {s : State} (hw : s.waits = true) : ∃ t, step s = .next t := by
  cases hc : s.command with
  | none => exact ⟨_, step_idle_waits hc hw⟩
  | some cw => rw [step_waits hc hw]; exact runCommand_next cw _

/-- The host presents a command that it may not: one is in progress (U4), or its buffer is too long (U7). -/
def State.Misissues (s : State) : Prop :=
  ∃ cw bytes rest, s.hostMoves = .issue cw bytes :: rest ∧
    (s.command.isSome = true ∨ s.config.allowsLen bytes.length = false)

/-- Everything a step can end in. -/
theorem step_outcome (s : State) : (∃ t, step s = .next t) ∨ (∃ e, step s = .refused e) ∧ s.Misissues := by
  cases hm : s.hostMoves with
  | nil => exact .inl (step_next_of_waits (by simp [State.waits, hm]))
  | cons m rest =>
    cases m with
    | await => exact .inl (step_next_of_waits (by simp [State.waits, hm]))
    | reset => exact .inl ⟨_, step_reset hm⟩
    | issue cw bytes =>
      cases hc : s.command with
      | some busy =>
        exact .inr ⟨⟨_, (step_busy hc).trans (busyStep_issue busy cw hm)⟩, cw, bytes, rest, hm, .inl (by simp [hc])⟩
      | none =>
        have hstep := step_issue hc hm
        cases hlen : s.config.allowsLen bytes.length with
        | true => exact .inl ⟨_, by rw [hstep, hlen]; rfl⟩
        | false => exact .inr ⟨⟨_, by rw [hstep, hlen]; rfl⟩, cw, bytes, rest, hm, .inr hlen⟩

/-- Settles O8: `exec_shape` and `step_outcome`. -/
theorem everyCommandTerminates : Obligations.EveryCommandTerminates := by
  unfold Obligations.EveryCommandTerminates
  refine ⟨fun i s => ?_, fun s f hfault => ?_, fun s e hrefused => ?_⟩
  · obtain ⟨r, hexec⟩ := exec_shape i s
    exact ⟨_, r, hexec, rfl, rfl⟩
  · rcases step_outcome s with ⟨t, h⟩ | ⟨⟨e, h⟩, -⟩ <;> cases hfault.symm.trans h
  · rcases step_outcome s with ⟨t, h⟩ | ⟨-, misissued⟩
    · cases hrefused.symm.trans h
    · exact misissued

/-! ### Faults (R130, R134) -/

/-- A result is no fault. -/
theorem noFault_answer_ok (v : Word) (s : State) : (answer ⟨.ok, v⟩ s).noFault := by
  intro r hr
  obtain rfl := Option.some.inj hr
  rfl

/-- Settles O47: of the responses that the order of checks allows, the preconditions leave the result. -/
theorem preconditionsExcludeFaults : Obligations.PreconditionsExcludeFaults := by
  unfold Obligations.PreconditionsExcludeFaults
  intro s cw i hc hw hd htable hreadable
  obtain ⟨r, hexec, hallows⟩ := exec_allows i s.afterWait
  refine ⟨_, r, ((step_waits hc hw).trans (runCommand_legal hd _)).trans hexec, rfl, ?_⟩
  cases hallows with
  | tableNotBuilt reads hunbuilt => exact absurd (htable reads) (by simpa using hunbuilt)
  | bufferFault isCrc _ hunreadable =>
    obtain ⟨k, hk, hnone⟩ := hunreadable
    obtain ⟨v, hv⟩ := hreadable isCrc k hk
    cases hnone.symm.trans hv
  | ok v => exact noFault_answer_ok v _

/-- A fault carries no value, and `BUILD`, the one command that writes, raises none (R134). -/
theorem Allows.of_isFault {i : Instr} {s : State} {r : Response} (h : Allows i s r) (hr : r.isFault = true) :
    r.val = 0#32 ∧ blockAfter i s = s := by
  cases h with
  | tableNotBuilt reads =>
    rcases reads with ⟨seed, rfl⟩ | ⟨n, rfl⟩ <;> exact ⟨rfl, rfl⟩
  | bufferFault isCrc =>
    obtain ⟨seed, rfl⟩ := isCrc
    exact ⟨rfl, rfl⟩
  | ok v => cases hr

/-- Settles O48: a reserved word and a faulting command leave the block as it is. -/
theorem faultingCommandChangesNothing : Obligations.FaultingCommandChangesNothing := by
  unfold Obligations.FaultingCommandChangesNothing
  intro s t cw r hc hw hstep hr hfault
  rw [step_waits hc hw] at hstep
  rcases runCommand_shape cw s.afterWait with ⟨i, r', -, hallows, h⟩ | ⟨e, -, h⟩
  · obtain rfl := Host.Outcome.next.inj (h.symm.trans hstep)
    obtain rfl := Option.some.inj hr
    obtain ⟨hval, hblock⟩ := hallows.of_isFault hfault
    exact ⟨hval, by rw [hblock]; rfl⟩
  · obtain rfl := Host.Outcome.next.inj (h.symm.trans hstep)
    obtain rfl := Option.some.inj hr
    exact ⟨rfl, rfl⟩

/-! ### Frames (R42, R103, R143) -/

section blockAfter
variable (i : Instr) (s : State)
@[simp] theorem blockAfter_buffer : (blockAfter i s).buffer = s.buffer := by cases i <;> rfl
@[simp] theorem blockAfter_hostMoves : (blockAfter i s).hostMoves = s.hostMoves := by cases i <;> rfl
@[simp] theorem blockAfter_config : (blockAfter i s).config = s.config := by cases i <;> rfl
end blockAfter

/-- Settles O49: the answer and the block after a command, field by field. -/
theorem commandFrame : Obligations.CommandFrame := by
  unfold Obligations.CommandFrame
  intro i s
  obtain ⟨r, hexec⟩ := exec_shape i s
  refine ⟨_, hexec, ?_, fun k => ?_, ?_, ?_, fun hbuild => ?_⟩
  · rw [answer_buffer, blockAfter_buffer]
  · rw [answer_buffer, blockAfter_buffer]
  · rw [answer_hostMoves, blockAfter_hostMoves]
  · rw [answer_config, blockAfter_config]
  · rw [blockAfter_of_ne_build hbuild]
    exact ⟨rfl, rfl⟩

/-- A word that is carried out changes the table only if it is `BUILD`'s. -/
theorem runCommand_changes_table {cw : CmdWord} {s t : State} (hrun : runCommand cw s = .next t)
    (hchanged : t.table ≠ s.table) : decode cw = .ok .build ∧ t.table = some (buildTable RPOLY) := by
  rcases runCommand_shape cw s with ⟨i, r, hd, -, h⟩ | ⟨e, -, h⟩
  · obtain rfl := Host.Outcome.next.inj (h.symm.trans hrun)
    by_cases hi : i = .build
    · subst hi
      exact ⟨hd, rfl⟩
    · exact absurd (by rw [blockAfter_of_ne_build hi]; rfl) hchanged
  · obtain rfl := Host.Outcome.next.inj (h.symm.trans hrun)
    exact absurd rfl hchanged

/-- A move of the host changes the table only if it is reset. -/
theorem idleStep_changes_table {s t : State} (hstep : idleStep s = .next t) (hchanged : t.table ≠ s.table) :
    ∃ rest, s.hostMoves = .reset :: rest ∧ t.tv = false := by
  rcases idleStep_next hstep with ⟨-, rfl⟩ | ⟨rest, -, rfl⟩ | ⟨rest, hm, rfl⟩ | ⟨cw, bytes, rest, -, -, rfl⟩
  · exact absurd rfl hchanged
  · exact absurd rfl hchanged
  · exact ⟨rest, hm, rfl⟩
  · exact absurd rfl hchanged

/-- Settles O50: by the moves of the host and of the core. -/
theorem onlyBuildAndResetChangeTheTable : Obligations.OnlyBuildAndResetChangeTheTable := by
  unfold Obligations.OnlyBuildAndResetChangeTheTable
  intro s t hstep hchanged
  rcases step_next hstep with ⟨-, hidle⟩ | ⟨cw, hc, hbusy⟩
  · exact .inr (idleStep_changes_table hidle hchanged)
  · rcases busyStep_next hbusy with ⟨rest, hm, rfl⟩ | ⟨rest, -, hrun⟩
    · exact .inr ⟨rest, hm, rfl⟩
    · obtain ⟨hd, htable⟩ := runCommand_changes_table hrun hchanged
      refine .inl ⟨cw, hc, hd, by simp [State.tv, htable], fun i tab htab => ?_⟩
      obtain rfl := Option.some.inj (htable.symm.trans htab)
      exact entry_buildTable RPOLY i

/-! ### What a response depends on (R33, R42, R62) -/

/-- States with the same table end with the same table (R33). -/
theorem blockAfter_table_congr {s s' : State} (htable : s.table = s'.table) (i : Instr) :
    (blockAfter i s).table = (blockAfter i s').table := by
  cases i with
  | build => rfl
  | rev8 | rev16 | rev32 | crc | rdtab | rdpoly | rdrpoly | rdstat => exact htable

/-- Settles O51: a reserved word has one answer, and a command's is that of `exec_same_response`. -/
theorem responseDependsOnTableAndBufferOnly : Obligations.ResponseDependsOnTableAndBufferOnly := by
  unfold Obligations.ResponseDependsOnTableAndBufferOnly
  intro s s' cw hc hc' hw hw' htable hread hlen
  rw [step_waits hc hw, step_waits hc' hw']
  cases hd : decode cw with
  | error e => exact ⟨_, _, _, runCommand_rejected hd _, runCommand_rejected hd _, rfl, rfl, htable⟩
  | ok i =>
    have same : s.afterWait.table = s'.afterWait.table := htable
    obtain ⟨r, h, h'⟩ := exec_same_response same hread hlen i
    exact ⟨_, _, r, (runCommand_legal hd _).trans h, (runCommand_legal hd _).trans h', rfl, rfl,
      blockAfter_table_congr same i⟩

/-- Another buffer changes no answer but that of `CRC` (R62). -/
theorem exec_bind {i : Instr} (hi : ∀ seed, i ≠ .crc seed) (s : State) (b : Buffer) :
    ∃ r, exec i s = .next (answer r (blockAfter i s)) ∧
      exec i (s.bind b) = .next (answer r (blockAfter i (s.bind b))) := by
  cases i with
  | crc seed => exact absurd rfl (hi seed)
  | rdtab n =>
    have same := bind_table b s
    cases ht : s.table with
    | none => exact ⟨_, execRdtab_unbuilt ht n, execRdtab_unbuilt (same.trans ht) n⟩
    | some t => exact ⟨_, execRdtab_built ht n, execRdtab_built (same.trans ht) n⟩
  | rev8 | rev16 | rev32 | build | rdpoly | rdrpoly | rdstat => exact ⟨_, rfl, rfl⟩

/-- Settles O52. -/
theorem onlyCrcReadsTheBuffer : Obligations.OnlyCrcReadsTheBuffer := by
  unfold Obligations.OnlyCrcReadsTheBuffer
  intro i s b hi
  obtain ⟨r, h, h'⟩ := exec_bind hi s b
  exact ⟨_, _, r, h, h', rfl, rfl, blockAfter_table_congr (bind_table b s) i⟩

/-- Settles O2: each value by computation. -/
theorem startStateIsTheResetState : Obligations.StartStateIsTheResetState :=
  ⟨rfl, rfl, rfl, statusWord_of_not_tv rfl, rfl, rpoly_eq⟩

end Sys2Proof.Machine

/-! PROOFS. The statements of `40_bit_reflector.md` R80 to R82 and R86 on the reflector itself. -/

namespace Sys2Proof.Machine

/-! ### The cascade is the contract (R80, R81) -/

theorem reverse16_eq_reverseN (x : Half) : reverse16 x = reverseN 16 x :=
  BitVec.eq_of_getLsbD_eq fun j _ => (getLsbD_reverse16 x j).trans (getLsbD_reverseN x 16 j).symm

theorem reverse32_eq_reverseN (x : Word) : reverse32 x = reverseN 32 x :=
  BitVec.eq_of_getLsbD_eq fun j _ => (getLsbD_reverse32 x j).trans (getLsbD_reverseN x 32 j).symm

/-- The contract of the reflector: bit `k` goes to bit `n-1-k` (R80). -/
theorem getLsbD_reverseN_mirrored {w n k : Nat} (x : BitVec w) (hk : k < n) :
    (reverseN n x).getLsbD (n - 1 - k) = x.getLsbD k := by
  have inRange : n - 1 - k < n := by omega
  have back : n - 1 - (n - 1 - k) = k := by omega
  rw [getLsbD_reverseN, back]
  simp [inRange]

/-- Settles O21: the cascade and `reverseN` agree on every bit. -/
theorem cascadeMeetsTheReflectorContract : Obligations.CascadeMeetsTheReflectorContract := by
  unfold Obligations.CascadeMeetsTheReflectorContract
  exact ⟨fun w n x k => getLsbD_reverseN_mirrored x, fun _ => rfl, fun _ => rfl, fun _ => rfl,
    reverse16_eq_reverseN, reverse32_eq_reverseN⟩

/-! ### The laws, for every width (R82) -/

/-- A word that reads the same from both ends is fixed. -/
theorem reverseN_of_palindrome {n : Nat} {x : BitVec n} (h : ∀ k, k < n → x.getLsbD (n - 1 - k) = x.getLsbD k) :
    reverseN n x = x := by
  apply BitVec.eq_of_getLsbD_eq
  intro j hj
  rw [getLsbD_reverseN, h j hj]
  simp [hj]

theorem reverseN_reverseN {n : Nat} (x : BitVec n) : reverseN n (reverseN n x) = x := by
  apply BitVec.eq_of_getLsbD_eq
  intro j hj
  rw [getLsbD_reverseN, getLsbD_reverseN_mirrored x hj]
  simp [hj]

theorem reverseN_xor {n : Nat} (a b : BitVec n) : reverseN n (a ^^^ b) = reverseN n a ^^^ reverseN n b := by
  apply BitVec.eq_of_getLsbD_eq
  intro j hj
  simp only [getLsbD_reverseN, BitVec.getLsbD_xor, hj, decide_true, Bool.true_and]

/-- A function that undoes itself is a bijection (R82 (d)). -/
theorem reverseN_bijective (n : Nat) : Function.Bijective fun x : BitVec n => reverseN n x :=
  Function.Involutive.bijective reverseN_reverseN

/-- `REV32`'s function undoes itself (R82 (a)). -/
theorem reverse32_reverse32 (x : Word) : reverse32 (reverse32 x) = x := by
  rw [reverse32_eq_reverseN, reverse32_eq_reverseN]
  exact reverseN_reverseN x

/-- Settles O22: each law holds of `reverseN` at every width. -/
theorem reflectorLaws : Obligations.ReflectorLaws := by
  unfold Obligations.ReflectorLaws
  refine ⟨reverse32_reverse32, fun x => ?_, reverseN_reverseN, by decide, by decide,
    fun n _ x => reverseN_of_palindrome, fun n _ => ⟨reverseN_bijective n, reverseN_xor⟩⟩
  rw [reverse16_eq_reverseN, reverse16_eq_reverseN]
  exact reverseN_reverseN x

/-- Settles O23. -/
theorem rev32TwiceReturnsTheOperand : Obligations.Rev32TwiceReturnsTheOperand := by
  unfold Obligations.Rev32TwiceReturnsTheOperand
  intro x s
  have twice := execRev32_eq (reverse32 x) (answer ⟨.ok, reverse32 x⟩ s)
  rw [reverse32_reverse32] at twice
  exact ⟨reverse32 x, _, _, execRev32_eq x s, rfl, twice, rfl⟩

end Sys2Proof.Machine

/-! PROOFS. The statements of `41_table_builder.md` R91 to R97. -/

namespace Sys2Proof.Machine

/-! ### The bit-at-a-time form (R92) -/

/-- `m + n` shifts are `m` shifts and then `n`. -/
theorem shiftSteps_add (rp : Word) (m n : Nat) : ∀ c, shiftSteps rp (m + n) c = shiftSteps rp n (shiftSteps rp m c) := by
  induction m with
  | zero => intro c; rw [Nat.zero_add]; rfl
  | succ m ih => intro c; rw [Nat.succ_add_eq_add_succ]; exact ih (shiftStep rp c)

/-- The last of `n + 1` shifts. -/
theorem shiftSteps_succ_last (rp : Word) (n : Nat) (c : Word) :
    shiftSteps rp (n + 1) c = shiftStep rp (shiftSteps rp n c) := shiftSteps_add rp n 1 c

/-- One shift, bit by bit. -/
theorem getLsbD_shiftStep (rp c : Word) (j : Nat) :
    (shiftStep rp c).getLsbD j = (c.getLsbD (j + 1) ^^ (c.getLsbD 0 && rp.getLsbD j)) := by
  cases h : c.getLsbD 0 <;>
    simp only [shiftStep, h, BitVec.getLsbD_xor, BitVec.getLsbD_ushiftRight, Nat.add_comm 1 j, Bool.true_and,
      Bool.false_and, Bool.xor_false, Bool.false_eq_true, if_true, if_false]

/-- A clear bit shifted out leaves a plain shift. -/
theorem shiftStep_of_clear (rp : Word) {c : Word} (h : c.getLsbD 0 = false) : shiftStep rp c = c >>> 1 := by
  rw [shiftStep, h]; rfl

/-- A set bit shifted out brings the polynomial in. -/
theorem shiftStep_of_set (rp : Word) {c : Word} (h : c.getLsbD 0 = true) : shiftStep rp c = c >>> 1 ^^^ rp := by
  rw [shiftStep, h]; rfl

/-! ### The builder follows the bit-at-a-time form (R91, R92) -/

/-- After `b` bit positions the builder holds the shift form's value `c` twice: `V` holds it from bit `b` up, as
far as `V` reaches, and `A` holds the bits of it that will be above the low byte at the end. -/
structure BuilderTracks {vw : Nat} (b : Nat) (va : BitVec vw × Word) (c : Word) : Prop where
  value : ∀ j, b + j < vw → va.1.getLsbD (b + j) = c.getLsbD j
  accumulator : va.2 = c >>> (8 - b)

/-- An index has no bit above its byte. -/
theorem setWidth_shiftRight_byte : ∀ i : Byte, i.setWidth 32 >>> 8 = 0#32 := by decide

/-- The builder starts from the index, and so does the shift form. -/
theorem builderTracks_start (vw : Nat) (i : Byte) :
    BuilderTracks 0 ((i.setWidth vw, 0#32) : BitVec vw × Word) (i.setWidth 32) where
  value j hj := by
    rw [Nat.zero_add] at hj ⊢
    rw [getLsbD_setWidth_word (by decide)]
    simp [hj]
  accumulator := (setWidth_shiftRight_byte i).symm

/-- One bit position of the builder is one shift. -/
theorem BuilderTracks.step {vw b : Nat} {va : BitVec vw × Word} {c : Word} (h : BuilderTracks b va c)
    (hvw : 8 ≤ vw) (hb : b < 8) (rp : Word) : BuilderTracks (b + 1) (builderStep rp va b) (shiftStep rp c) := by
  have tested : va.1.getLsbD b = c.getLsbD 0 := h.value 0 (by omega)
  have shifted : c >>> (8 - b) = c >>> 1 >>> (8 - (b + 1)) := by
    rw [← BitVec.shiftRight_add]; congr 1; omega
  have value (j : Nat) (hj : b + 1 + j < vw) : va.1.getLsbD (b + 1 + j) = c.getLsbD (j + 1) := by
    rw [← h.value (j + 1) (by omega)]; congr 1; omega
  unfold builderStep
  rw [tested]
  cases hc : c.getLsbD 0 with
  | false =>
    refine ⟨fun j hj => ?_, ?_⟩
    · rw [getLsbD_shiftStep, hc]
      simpa using value j hj
    · rw [shiftStep_of_clear rp hc, ← shifted]
      exact h.accumulator
  | true =>
    refine ⟨fun j hj => ?_, ?_⟩
    · have inV : j < vw := by omega
      rw [getLsbD_shiftStep, hc]
      have past : ¬ b + 1 + j < b + 1 := by omega
      have offset : b + 1 + j - (b + 1) = j := by omega
      simp only [if_true, BitVec.getLsbD_xor, BitVec.getLsbD_shiftLeft, BitVec.getLsbD_setWidth, value j hj, hj, inV,
        past, offset, decide_true, decide_false, Bool.not_false, Bool.true_and]
    · rw [shiftStep_of_set rp hc, BitVec.ushiftRight_xor_distrib, ← shifted, ← h.accumulator]
      simp

/-- The builder after its first `n` bit positions, for a `V` of 8 bits or more. -/
theorem builderTracks_foldl {vw : Nat} (hvw : 8 ≤ vw) (rp : Word) (i : Byte) : ∀ n, n ≤ 8 →
    BuilderTracks n ((List.range n).foldl (builderStep rp) ((i.setWidth vw, 0#32) : BitVec vw × Word))
      (shiftSteps rp n (i.setWidth 32)) := by
  intro n
  induction n with
  | zero => exact fun _ => builderTracks_start vw i
  | succ n ih =>
    intro hn
    rw [List.range_succ, List.foldl_append, shiftSteps_succ_last]
    exact (ih (by omega)).step hvw hn rp

/-- The builder at the end: `A` is the shift form's value, and `V` holds it from bit 8 up. -/
theorem builderTracks_final {vw : Nat} (hvw : 8 ≤ vw) (rp : Word) (i : Byte) :
    BuilderTracks 8 (builderFinal vw rp i) (shiftXorEntry rp i) :=
  builderTracks_foldl hvw rp i 8 (Nat.le_refl 8)

/-- Eight shifts give the builder's accumulator, whatever the width of `V`. -/
theorem builderFinal_snd {vw : Nat} (hvw : 8 ≤ vw) (rp : Word) (i : Byte) :
    (builderFinal vw rp i).2 = shiftXorEntry rp i := by
  rw [(builderTracks_final hvw rp i).accumulator]
  exact BitVec.ushiftRight_zero _

theorem buildEntry_eq_shiftXorEntry (rp : Word) (i : Byte) : buildEntry rp i = shiftXorEntry rp i :=
  builderFinal_snd (by decide) rp i

/-- Settles O30: the builder tracks the shift form. -/
theorem tableEntryIsEightShifts : Obligations.TableEntryIsEightShifts := buildEntry_eq_shiftXorEntry

/-- Settles O29: the shift form does not mention `V`; and what `V` holds from bit 8 up is the entry. -/
theorem workingValueWidthDoesNotMatter : Obligations.WorkingValueWidthDoesNotMatter := by
  unfold Obligations.WorkingValueWidthDoesNotMatter
  intro rp i
  refine ⟨fun vw hvw => ?_, ?_⟩
  · rw [builderFinal_snd hvw, buildEntry_eq_shiftXorEntry]
  · apply BitVec.eq_of_getLsbD_eq
    intro j hj
    have held := (builderTracks_final (vw := 32) (by decide) rp i).value j (by omega)
    simp [hj, held, buildEntry_eq_shiftXorEntry]

/-! ### The laws of the table (R95 (a) to (d)) -/

theorem buildEntry_zero (rp : Word) : buildEntry rp 0x00#8 = 0#32 := by
  rw [buildEntry_eq_shiftXorEntry]
  exact shiftSteps_zero rp 8

theorem buildEntry_xor (rp : Word) (a b : Byte) : buildEntry rp (a ^^^ b) = buildEntry rp a ^^^ buildEntry rp b := by
  simp only [buildEntry_eq_shiftXorEntry, shiftXorEntry, BitVec.setWidth_xor, shiftSteps_xor]

/-- The low `n` bits being clear, `n` shifts XOR nothing in. -/
theorem shiftSteps_of_lowBits_clear (rp : Word) (n : Nat) : ∀ c : Word, (∀ k, k < n → c.getLsbD k = false) →
    shiftSteps rp n c = c >>> n := by
  induction n with
  | zero => intros; exact (BitVec.ushiftRight_zero _).symm
  | succ n ih =>
    intro c hc
    have tail : ∀ k, k < n → (c >>> 1).getLsbD k = false := fun k hk => by
      rw [BitVec.getLsbD_ushiftRight]; exact hc _ (by omega)
    rw [shiftSteps, shiftStep_of_clear rp (hc 0 (Nat.succ_pos n)), ih _ tail, ← BitVec.shiftRight_add, Nat.add_comm]

/-- A single set bit: it is shifted down to bit 0, and the next shift turns it into the polynomial. -/
theorem shiftSteps_singleBit (rp : Word) {m : Nat} (hm : m < 32) :
    shiftSteps rp (m + 1) (BitVec.twoPow 32 m) = rp := by
  have clear : ∀ k, k < m → (BitVec.twoPow 32 m).getLsbD k = false := fun k hk => by
    have hne : m ≠ k := by omega
    simp [BitVec.getLsbD_twoPow, hne]
  have one : BitVec.twoPow 32 m >>> m = 1#32 := by
    apply BitVec.eq_of_toNat_eq
    simp [BitVec.toNat_twoPow_of_lt hm, Nat.shiftRight_eq_div_pow]
  rw [shiftSteps_succ_last, shiftSteps_of_lowBits_clear rp m _ clear, one, shiftStep_of_set rp (by decide)]
  exact BitVec.zero_xor

/-- The entry of a single-bit index (R95 (c)). -/
theorem buildEntry_singleBit (rp : Word) {j : Nat} (hj : j < 8) :
    buildEntry rp (0x80#8 >>> j) = shiftSteps rp j rp := by
  rw [buildEntry_eq_shiftXorEntry, shiftXorEntry]
  have index : (0x80#8 >>> j).setWidth 32 = BitVec.twoPow 32 (7 - j) := by
    interval_cases j <;> decide
  have count : 7 - j + 1 + j = 8 := by omega
  have shifts := shiftSteps_add rp (7 - j + 1) j (BitVec.twoPow 32 (7 - j))
  rwa [shiftSteps_singleBit rp (by omega), count, ← index] at shifts

/-- Settles O27: the laws of the shift form. -/
theorem tableLawsForAnyPolynomial : Obligations.TableLawsForAnyPolynomial := by
  unfold Obligations.TableLawsForAnyPolynomial
  intro rp
  exact ⟨buildEntry_zero rp, buildEntry_highBit rp, fun j => buildEntry_singleBit rp, buildEntry_xor rp⟩

/-! ### A polynomial with its top bit set (R95 (e), R111) -/

section topBit
variable {rp : Word} (hrp : rp.getLsbD 31 = true)
include hrp

/-- The top bit after a shift is the bit that was shifted out. -/
theorem getLsbD_shiftStep_top (c : Word) : (shiftStep rp c).getLsbD 31 = c.getLsbD 0 := by
  rw [getLsbD_shiftStep, hrp]
  simp

/-- No shift loses a bit: the one shifted out is read off at the top, and the rest is the shift of the rest. -/
theorem shiftStep_injective : Function.Injective (shiftStep rp) := by
  intro a b hab
  have out : a.getLsbD 0 = b.getLsbD 0 := by rw [← getLsbD_shiftStep_top hrp, hab, getLsbD_shiftStep_top hrp]
  apply BitVec.eq_of_getLsbD_eq
  intro j _
  cases j with
  | zero => exact out
  | succ j =>
    have bit := congrArg (fun c => c.getLsbD j) hab
    simpa only [getLsbD_shiftStep, out, Bool.xor_left_inj] using bit

theorem shiftSteps_injective (n : Nat) : Function.Injective (shiftSteps rp n) := by
  induction n with
  | zero => exact Function.injective_id
  | succ n ih => exact ih.comp (shiftStep_injective hrp)

/-- The top `n` bits after `n` shifts show what was shifted out; where they are clear, nothing was XORed in. -/
theorem shiftSteps_of_topBits_clear (c : Word) (n : Nat) (hn : n ≤ 32) :
    (∀ k, k < n → (shiftSteps rp n c).getLsbD (31 - k) = false) → shiftSteps rp n c = c >>> n := by
  induction n with
  | zero => intro; exact (BitVec.ushiftRight_zero _).symm
  | succ n ih =>
    intro h
    rw [shiftSteps_succ_last] at h ⊢
    have out : (shiftSteps rp n c).getLsbD 0 = false := by
      rw [← getLsbD_shiftStep_top hrp]; exact h 0 (Nat.succ_pos n)
    have shifted := shiftStep_of_clear rp out
    have earlier (k : Nat) (hk : k < n) : (shiftSteps rp n c).getLsbD (31 - k) = false := by
      have top := h (k + 1) (by omega)
      rwa [shifted, BitVec.getLsbD_ushiftRight, show 1 + (31 - (k + 1)) = 31 - k by omega] at top
    rw [shifted, ih (by omega) earlier, BitVec.shiftRight_add]

/-- Only entry 0 has a clear top byte. -/
theorem buildEntry_topByte_zero {i : Byte} (h : (buildEntry rp i).extractLsb' 24 8 = 0#8) : i = 0#8 := by
  rw [buildEntry_eq_shiftXorEntry, shiftXorEntry] at h
  have topBits (k : Nat) (hk : k < 8) : (shiftSteps rp 8 (i.setWidth 32)).getLsbD (31 - k) = false := by
    have bit := congrArg (fun v => v.getLsbD (7 - k)) h
    have inByte : 7 - k < 8 := by omega
    have place : 24 + (7 - k) = 31 - k := by omega
    simpa [inByte, place] using bit
  have entry := shiftSteps_of_topBits_clear hrp (i.setWidth 32) 8 (by decide) topBits
  rw [setWidth_shiftRight_byte, ← shiftSteps_zero rp 8] at entry
  rw [← argByte_setWidth i, shiftSteps_injective hrp 8 entry]
  rfl

end topBit

/-- The polynomial of this hardware has its top bit set. -/
theorem rpoly_topBit : RPOLY.getLsbD 31 = true := by decide

/-- Settles O28: by linearity, the top byte of the entry of `i ^ j` is the XOR of two equal bytes. -/
theorem topBytesOfTheTableDiffer : Obligations.TopBytesOfTheTableDiffer := by
  unfold Obligations.TopBytesOfTheTableDiffer
  intro i j hij
  have clear : (buildEntry RPOLY (i ^^^ j)).extractLsb' 24 8 = 0#8 := by
    rw [buildEntry_xor, BitVec.extractLsb'_xor, hij, BitVec.xor_self]
  exact BitVec.xor_eq_zero_iff.mp (buildEntry_topByte_zero rpoly_topBit clear)

/-- Settles O26: each entry by computation. -/
theorem standardTableEntries : Obligations.StandardTableEntries := by
  unfold Obligations.StandardTableEntries
  decide

end Sys2Proof.Machine

/-! PROOFS. The statements of `42_checksum_engine.md` R104, R105, R110 and R111. -/

namespace Sys2Proof.Machine

/-! ### The step over the table that `BUILD` writes is eight shifts (R92, R101) -/

/-- A table with the entries that `BUILD` writes is the one it writes. -/
theorem table_eq_buildTable {t : Table} (h : ∀ i : Byte, t.entry i = buildEntry RPOLY i) : t = buildTable RPOLY :=
  table_ext fun i => (h i).trans (entry_buildTable RPOLY i).symm

/-- The accumulator without its low byte: eight shifts only move it down. -/
theorem shiftSteps_withoutLowByte (rp acc : Word) :
    shiftSteps rp 8 (acc ^^^ (lowByte acc).setWidth 32) = acc >>> 8 := by
  rw [shiftSteps_of_lowBits_clear, BitVec.ushiftRight_xor_distrib, setWidth_shiftRight_byte, BitVec.xor_zero]
  intro k hk
  rw [BitVec.getLsbD_xor, getLsbD_setWidth_word (by decide), lowByte, BitVec.getLsbD_extractLsb', Nat.zero_add]
  simp [hk]

/-- By linearity, the table lookup shifts the low byte out and the plain shift moves the rest. -/
theorem crcStep_buildTable (rp acc : Word) (d : Byte) :
    crcStep (buildTable rp) acc d = shiftSteps rp 8 (acc ^^^ d.setWidth 32) := by
  have parts : acc ^^^ d.setWidth 32 = (tableIndex d acc).setWidth 32 ^^^ (acc ^^^ (lowByte acc).setWidth 32) := by
    rw [tableIndex, BitVec.setWidth_xor]
    generalize d.setWidth 32 = x, (lowByte acc).setWidth 32 = low
    calc acc ^^^ x = acc ^^^ x ^^^ (low ^^^ low) := by rw [BitVec.xor_self, BitVec.xor_zero]
      _ = x ^^^ low ^^^ (acc ^^^ low) := by ac_rfl
  rw [parts, shiftSteps_xor, shiftSteps_withoutLowByte, crcStep, entry_buildTable, buildEntry_eq_shiftXorEntry]
  rfl

/-- The table-driven checksum is the bit-serial one. -/
theorem crc32_buildTable (rp : Word) (data : List Byte) (seed : Word) :
    crc32 (buildTable rp) data seed = bitSerialCrc rp data seed := by
  have steps : crcStep (buildTable rp) = fun acc d => shiftSteps rp 8 (acc ^^^ d.setWidth 32) :=
    funext₂ (crcStep_buildTable rp)
  rw [crc32, steps]
  rfl

/-- What `CRC` answers over readable bytes once the table is built. -/
theorem execCrc_sound {s : State} (hs : s.TableSound) (htv : s.tv = true) (data : List Byte) (seed : Word) :
    exec (.crc seed) (s.bind (readableBuffer data)) =
      .next (answer ⟨.ok, crc32 (buildTable RPOLY) data seed⟩ (s.bind (readableBuffer data))) :=
  execCrc_bound (hs.table_eq htv) data seed

/-- Settles O36: the table-driven step is eight shifts. -/
theorem crcEqualsTheBitSerialChecksum : Obligations.CrcEqualsTheBitSerialChecksum := by
  unfold Obligations.CrcEqualsTheBitSerialChecksum
  intro s data seed hs htv
  rw [execCrc_sound hs htv, crc32_buildTable, rpoly_eq]
  rfl

/-! ### No step loses a bit (R111) -/

/-- For a fixed byte the step is injective in the accumulator. -/
theorem crcStep_injective (d : Byte) : Function.Injective fun acc => crcStep (buildTable RPOLY) acc d := by
  intro a b hab
  simp only [crcStep_buildTable] at hab
  exact (BitVec.xor_left_inj _).mp (shiftSteps_injective rpoly_topBit 8 hab)

/-- For a fixed accumulator the step is injective in the byte. -/
theorem crcStep_injective_byte (acc : Word) : Function.Injective (crcStep (buildTable RPOLY) acc) := by
  intro d d' hdd
  simp only [crcStep_buildTable] at hdd
  have same := (BitVec.xor_right_inj _).mp (shiftSteps_injective rpoly_topBit 8 hdd)
  rw [← argByte_setWidth d, same, argByte_setWidth]

/-- Settles O38: on the finitely many accumulators, injective is bijective. -/
theorem checksumStepIsBijective : Obligations.ChecksumStepIsBijective := by
  unfold Obligations.ChecksumStepIsBijective
  intro t d ht
  rw [table_eq_buildTable ht]
  exact Finite.injective_iff_bijective.mp (crcStep_injective d)

/-- Different accumulators stay different over every further byte. -/
theorem foldl_crcStep_injective (data : List Byte) : Function.Injective fun acc =>
    data.foldl (crcStep (buildTable RPOLY)) acc := by
  induction data with
  | nil => exact Function.injective_id
  | cons d ds ih => exact ih.comp (crcStep_injective d)

/-- Settles O37: the step tells the two bytes apart, and no later step loses the difference. -/
theorem oneChangedByteChangesTheChecksum : Obligations.OneChangedByteChangesTheChecksum := by
  unfold Obligations.OneChangedByteChangesTheChecksum
  intro s front back d d' seed hs htv hne
  refine ⟨_, _, _, _, execCrc_sound hs htv _ seed, rfl, execCrc_sound hs htv _ seed, rfl, fun same => hne ?_⟩
  rw [crc32, crc32, List.foldl_append, List.foldl_append] at same
  exact crcStep_injective_byte _ (foldl_crcStep_injective back ((BitVec.xor_left_inj _).mp same))

/-! ### Fixed points and reference values (R104, R105, R110) -/

/-- Zero bytes keep a zero accumulator at zero. -/
theorem foldl_crcStep_zero (rp : Word) (n : Nat) :
    (List.replicate n 0x00#8).foldl (crcStep (buildTable rp)) 0#32 = 0#32 := by
  induction n with
  | zero => rfl
  | succ n ih =>
    have stays : crcStep (buildTable rp) 0#32 0x00#8 = 0#32 :=
      (crcStep_buildTable rp 0#32 0x00#8).trans (shiftSteps_zero rp 8)
    rw [List.replicate_succ, List.foldl_cons, stays, ih]

/-- Settles O39: the pre-complement makes the accumulator zero. -/
theorem zeroBytesAreInvisibleToTheComplementedSeed : Obligations.ZeroBytesAreInvisibleToTheComplementedSeed := by
  unfold Obligations.ZeroBytesAreInvisibleToTheComplementedSeed
  intro s n hs htv
  have value : crc32 (buildTable RPOLY) (List.replicate n 0x00#8) 0xFFFFFFFF#32 = 0xFFFFFFFF#32 := by
    have start : 0xFFFFFFFF#32 ^^^ FMASK = 0#32 := by decide
    rw [crc32, start, foldl_crcStep_zero]; rfl
  exact ⟨_, execCrc_sound hs htv _ _, by rw [value]; rfl⟩

/-- Settles O32: with no byte to absorb the two complements cancel. -/
theorem emptyBufferReturnsTheSeed : Obligations.EmptyBufferReturnsTheSeed := by
  unfold Obligations.EmptyBufferReturnsTheSeed
  intro s seed htv hlen
  obtain ⟨t, ht⟩ := Option.isSome_iff_exists.mp htv
  have hcrc := execCrc_readable (data := []) ht hlen (fun _ => nofun) seed
  rwa [show crc32 t [] seed = seed from xor_fmask_xor_fmask seed] at hcrc

/-- The bit-serial checksum of each reference input (R110). -/
theorem bitSerialCrc_reference : ∀ p ∈ [([], 0x00000000#32), ([0x61#8], 0xE8B7BE43#32),
    ([0x61#8, 0x62#8, 0x63#8, 0x64#8], 0xED82CD11#32),
    ([0x31#8, 0x32#8, 0x33#8, 0x34#8, 0x35#8, 0x36#8, 0x37#8, 0x38#8, 0x39#8], 0xCBF43926#32)],
    bitSerialCrc RPOLY p.1 0#32 = p.2 := by decide +kernel

/-- Settles O40: over the table that `BUILD` writes, `CRC` answers the bit-serial checksum. -/
theorem referenceChecksums : Obligations.ReferenceChecksums := by
  unfold Obligations.ReferenceChecksums
  intro s
  refine ⟨_, execBuild_eq s, fun data v hmem => ⟨_, execCrc_bound rfl data 0#32, ?_⟩⟩
  rw [crc32_buildTable, bitSerialCrc_reference (data, v) hmem]
  rfl

end Sys2Proof.Machine
